-- ==== Sys2Proof/Word.lean ====
section
/-! DEFINITION. The fixed-size words of the command frames and of the host buffer space (00_scope R6, 20_memory R30).
Register values are NOT words: their width is CBITS, which a CONFIG chooses, and the spec's rules compute on natural
numbers (00_scope R6), so the model does too. -/

namespace Sys2Proof

/-- A byte: 8 bits (00_scope R6). -/
abbrev Byte := BitVec 8

/-- A byte address of the host buffer space: 64 bits (00_scope R5 `ADDR_BITS`, 20_memory R30). -/
abbrev Addr := BitVec 64

end Sys2Proof
end

