-- ==== Sys2Proof/Syntax.lean ====
section
/-! DEFINITION. The five commands of the block (30_encoding R42), with the operand fields of their formats
(30_encoding R43 to R47) as values. -/

namespace Sys2Proof

/-- The `core` field of CONFIG (30_encoding R43). The codes 5, 6, 7 are reserved and have no constructor. -/
inductive CoreSel where
  | auto
  | c8
  | c16
  | c64
  | multi
deriving DecidableEq, Repr

/-- The operand fields of CONFIG, format CFG (30_encoding R43). `width` is the 32-bit two's complement field;
`poly`, `init` and `xorout` are the naturals carried big-endian in `nb` bytes each. -/
structure ConfigOperands where
  core      : CoreSel
  refin     : Bool
  refout    : Bool
  withtable : Bool
  width     : BitVec 32
  nb        : BitVec 16
  poly      : Nat
  init      : Nat
  xorout    : Nat
deriving DecidableEq, Repr

/-- The operand fields of UPDBUF, format UBUF (30_encoding R45). `offset` and `length` are 32-bit two's complement
fields, `size` is unsigned, `base` is a byte address. -/
structure BufferOperands where
  present : Bool
  base    : Addr
  size    : BitVec 32
  offset  : BitVec 32
  length  : BitVec 32
deriving DecidableEq, Repr

/-- A command (30_encoding R42), one constructor per row of the opcode table. -/
inductive Instr where
  /-- CONFIG, opcode 0x01 (41 R75). -/
  | config (op : ConfigOperands)
  /-- UPD, opcode 0x02 (42 R90). -/
  | upd (data : Byte)
  /-- UPDBUF, opcode 0x03 (42 R96). -/
  | updbuf (buf : BufferOperands)
  /-- FIN, opcode 0x04 (43 R105). -/
  | fin
  /-- RST, opcode 0x05 (43 R111). -/
  | rst
deriving DecidableEq, Repr

end Sys2Proof
end

