-- ==== Sys2Proof/WellFormed.lean ====
section
/-! DEFINITION. Which terms of `Instr` a frame can carry. Only CONFIG can be ill-formed: each of its three parameter
operands must fit in the `nb` bytes that carry it (30_encoding R43, R48). Every other field's type has exactly the
values its bits have. -/

namespace Sys2Proof

/-- The number of different values of an `nb`-byte unsigned field (30_encoding R48). -/
def ConfigOperands.fieldBound (op : ConfigOperands) : Nat := 256 ^ op.nb.toNat

/-- Each parameter operand of CONFIG fits in its `nb` bytes (30_encoding R43). -/
def ConfigOperands.wellFormed (op : ConfigOperands) : Bool :=
  decide (op.poly < op.fieldBound) && decide (op.init < op.fieldBound) && decide (op.xorout < op.fieldBound)

/-- A term that some frame carries (30_encoding R43 to R48). -/
def Instr.wellFormed : Instr → Bool
  | .config op => op.wellFormed
  | .upd _     => true
  | .updbuf _  => true
  | .fin       => true
  | .rst       => true

end Sys2Proof
end

