-- ==== Sys2Proof/Decode.lean ====
section
/-! DEFINITION. Command frames: big-endian fields (30_encoding R48), the total decoder (30_encoding R49, R50) and the
encoder written from the same format tables (30_encoding R41 to R47). -/

namespace Sys2Proof

/-! ## Fields -/

/-- The unsigned value of a big-endian field (30_encoding R48); 0 for the field of no bytes. -/
def beNat (f : List Byte) : Nat := f.foldl (fun acc b => acc * 256 + b.toNat) 0

/-- The `k` bytes of a big-endian field holding `v mod 256^k`, most significant first (30_encoding R48). -/
def beBytes : Nat → Nat → List Byte
  | 0, _     => []
  | k + 1, v => beBytes k (v / 256) ++ [BitVec.ofNat 8 v]

/-- The bytes `f[lo] .. f[lo + k - 1]` of a frame. -/
def field (lo k : Nat) (f : List Byte) : List Byte := (f.drop lo).take k

/-- Bit `i` of a byte as 0 or 1, bit 7 the most significant (30_encoding R41). -/
def byteBit (b : Byte) (i : Nat) : Bool := b.getLsbD i

/-- The code of the `core` field (30_encoding R43). -/
def CoreSel.code : CoreSel → BitVec 3
  | .auto  => 0
  | .c8    => 1
  | .c16   => 2
  | .c64   => 3
  | .multi => 4

/-- The core a code selects; 5, 6 and 7 are reserved (30_encoding R43, R49). -/
def CoreSel.ofCode (c : BitVec 3) : Option CoreSel :=
  if c = 0 then some .auto
  else if c = 1 then some .c8
  else if c = 2 then some .c16
  else if c = 3 then some .c64
  else if c = 4 then some .multi
  else none

/-! ## The decoder -/

/-- Why a frame is illegal (30_encoding R49). All of them get the one response IllegalCommand (60 R136). -/
inductive DecodeError where
  /-- The frame has no bytes (R50 step 1). -/
  | empty
  /-- Byte 0 is 0x00 or 0x06 .. 0xFF (R50 step 2). -/
  | unknownOpcode
  /-- The frame has not the length its opcode and, for CONFIG, its `nb` field require (R50 steps 3 and 4). -/
  | wrongLength
  /-- CONFIG with `core` field 5, 6 or 7 (R49). -/
  | reservedCore
  /-- CONFIG with bits 1:0 of byte 1, or UPDBUF with bits 7:1 of byte 1, not all 0 (R49). -/
  | reservedBits
deriving DecidableEq, Repr

/-- Decoding of a CONFIG frame `f` (30_encoding R43, R50 steps 4 to 6): the length first, then the reserved field
values, then the fields. -/
def decodeConfig (f : List Byte) : Except DecodeError Instr :=
  let nb := beNat (field 6 2 f)
  if f.length < 8 ∨ f.length ≠ 8 + 3 * nb then .error .wrongLength
  else
    let b1 := f.getD 1 0
    if byteBit b1 1 ∨ byteBit b1 0 then .error .reservedBits
    else
      match CoreSel.ofCode (b1.extractLsb' 5 3) with
      | none => .error .reservedCore
      | some core =>
        .ok (.config
          { core      := core
            refin     := byteBit b1 4
            refout    := byteBit b1 3
            withtable := byteBit b1 2
            width     := BitVec.ofNat 32 (beNat (field 2 4 f))
            nb        := BitVec.ofNat 16 nb
            poly      := beNat (field 8 nb f)
            init      := beNat (field (8 + nb) nb f)
            xorout    := beNat (field (8 + 2 * nb) nb f) })

/-- Decoding of a UPD frame (30_encoding R44). -/
def decodeUpd (f : List Byte) : Except DecodeError Instr :=
  if f.length ≠ 2 then .error .wrongLength else .ok (.upd (f.getD 1 0))

/-- Decoding of a UPDBUF frame (30_encoding R45). -/
def decodeUpdbuf (f : List Byte) : Except DecodeError Instr :=
  if f.length ≠ 22 then .error .wrongLength
  else
    let b1 := f.getD 1 0
    if b1.extractLsb' 1 7 ≠ 0 then .error .reservedBits
    else
      .ok (.updbuf
        { present := byteBit b1 0
          base    := BitVec.ofNat 64 (beNat (field 2 8 f))
          size    := BitVec.ofNat 32 (beNat (field 10 4 f))
          offset  := BitVec.ofNat 32 (beNat (field 14 4 f))
          length  := BitVec.ofNat 32 (beNat (field 18 4 f)) })

/-- Decoding of a frame of format N, the opcode alone (30_encoding R46, R47). -/
def decodeBare (i : Instr) (f : List Byte) : Except DecodeError Instr :=
  if f.length ≠ 1 then .error .wrongLength else .ok i

/-- The decoder: total, one result per frame, the checks in the order of 30_encoding R50; opcodes from R42. -/
def decode : List Byte → Except DecodeError Instr
  | []           => .error .empty
  | opcode :: fs =>
    if opcode = 0x01 then decodeConfig (opcode :: fs)
    else if opcode = 0x02 then decodeUpd (opcode :: fs)
    else if opcode = 0x03 then decodeUpdbuf (opcode :: fs)
    else if opcode = 0x04 then decodeBare .fin (opcode :: fs)
    else if opcode = 0x05 then decodeBare .rst (opcode :: fs)
    else .error .unknownOpcode

/-! ## The encoder -/

/-- Byte 1 of a CONFIG frame: `core` in bits 7:5, `refin` 4, `refout` 3, `withtable` 2, bits 1:0 zero
(30_encoding R43). -/
def ConfigOperands.flagByte (op : ConfigOperands) : Byte :=
  op.core.code ++ BitVec.ofBool op.refin ++ BitVec.ofBool op.refout ++ BitVec.ofBool op.withtable ++ (0 : BitVec 2)

/-- Byte 1 of a UPDBUF frame: bits 7:1 zero, `present` in bit 0 (30_encoding R45). -/
def BufferOperands.flagByte (buf : BufferOperands) : Byte := (0 : BitVec 7) ++ BitVec.ofBool buf.present

/-- The frame of a command (30_encoding R43 to R48). -/
def encode : Instr → List Byte
  | .config op =>
    [0x01, op.flagByte] ++ beBytes 4 op.width.toNat ++ beBytes 2 op.nb.toNat ++
      beBytes op.nb.toNat op.poly ++ beBytes op.nb.toNat op.init ++ beBytes op.nb.toNat op.xorout
  | .upd data => [0x02, data]
  | .updbuf buf =>
    [0x03, buf.flagByte] ++ beBytes 8 buf.base.toNat ++ beBytes 4 buf.size.toNat ++
      beBytes 4 buf.offset.toNat ++ beBytes 4 buf.length.toNat
  | .fin => [0x04]
  | .rst => [0x05]

/-! ## The opcode table's numbering of a frame's bits -/

/-- Byte `k` of a frame whose bits are `w`, bit 0 the least significant bit of byte 0, byte 1 in bits 15..8. -/
def tableByte (w k : Nat) : Byte := BitVec.ofNat 8 (w >>> (8 * k))

/-- The length 30_encoding R42 gives a frame by its opcode and, for CONFIG, its `nb` field (bytes 6 and 7);
0 where the opcode is illegal. -/
def tableLength (w : Nat) : Nat :=
  if tableByte w 0 = 0x01 then 8 + 3 * beNat [tableByte w 6, tableByte w 7]
  else if tableByte w 0 = 0x02 then 2
  else if tableByte w 0 = 0x03 then 22
  else if tableByte w 0 = 0x04 then 1
  else if tableByte w 0 = 0x05 then 1
  else 0

/-- The frame whose low `nbits` bits are those of `w` and whose further bytes, up to the length its opcode requires,
are 0. -/
def tableFrame (nbits w : Nat) : List Byte :=
  let v := w % 2 ^ nbits
  (List.range (max ((nbits + 7) / 8) (tableLength v))).map (tableByte v)

/-- What the decoder reads from the frame of `tableFrame`. -/
def decodeTableWord (nbits w : Nat) : Option Instr :=
  match decode (tableFrame nbits w) with
  | .ok i    => some i
  | .error _ => none

end Sys2Proof
end

