-- ==== Sys2Proof/Config.lean ====
section
/-! DEFINITION. The implementation parameters of 00_scope R5. All but `WMAX` are fixed by the spec. -/

namespace Sys2Proof

/-- `SHARD_BITS`: the size of one shard of the multi-word core, in bits (00_scope R5, 92 D3). -/
def Config.shardBits : Nat := 8

/-- `TABLE_ENTRIES`: the entries of the lookup table (00_scope R5). -/
def Config.tableEntries : Nat := 256

/-- `NB_MAX`: the largest byte count of one parameter operand of CONFIG (00_scope R5, 92 D8). -/
def Config.nbMax : Nat := 65535

/-- The size of the host buffer space in bytes, 2^`ADDR_BITS` (00_scope R5, 92 D9). -/
def Config.memSize : Nat := 2 ^ 64

/-- The implementer's choice of `WMAX`. It has no body, so no proof can see its value (93 U11: parameter).
DESIGN CHOICE, safe: notes/assumptions/6.md. -/
opaque Config.wmaxChoice : Nat

/-- `WMAX`: the largest width the multi-word core accepts. 00_scope R5 leaves it open as an integer with
82 ≤ WMAX ≤ 524280; the expression takes exactly these values as `wmaxChoice` takes all values. -/
def Config.wmax : Nat := 82 + Config.wmaxChoice % 524199

end Sys2Proof
end

