-- ==== Sys2Proof/Machine/State.lean ====
section
/-! DEFINITION. The state of the machine as plain data: the one engine instance of 10_state R10, the host buffer space
of 20_memory R30, and the run of 70_reset_and_hazards R159 (what the host has issued and is not yet served, the
responses given, the buffer addresses read). -/

namespace Sys2Proof.Machine

/-- A core: `CORE` is never AUTO (10_state R12). -/
inductive Core where
  /-- 8-bit container. -/
  | c8
  /-- 16-bit container. -/
  | c16
  /-- 64-bit container. -/
  | c64
  /-- Multi-word container of 8-bit shards. -/
  | multi
deriving DecidableEq, Repr

/-- The phases of an existing engine instance (10_state R11). -/
inductive Activity where
  /-- The register is `INIT`. -/
  | ready
  /-- The register reflects consumed bytes. -/
  | accumulating
deriving DecidableEq, Repr

/-- `PHASE` (10_state R11). Unconfigured is the phase "in which no engine instance exists". -/
inductive Phase where
  | unconfigured
  | ready
  | accumulating
deriving DecidableEq, Repr

/-- `TABLE[0..255]`, one entry of CBITS bits per byte (10_state R22). -/
abbrev Table := Vector Nat 256

/-- The engine instance that a successful CONFIG creates: the elements of 10_state R10. Values of C bits are naturals
(00_scope R6). `WITHTABLE` is 1 exactly when `table` is present: the table holds no value when `WITHTABLE` = 0
(10_state R22, R27), see notes/assumptions/3.md. -/
structure Engine where
  /-- `PHASE`, of an engine that exists (R11). -/
  phase  : Activity
  /-- `CORE` (R12). -/
  core   : Core
  /-- `CBITS`, written C: the bits of the container (R13). -/
  cbits  : Nat
  /-- `WIDTH`, written w (R14). -/
  width  : Nat
  /-- `MOVES`, written m: C - w (R15). -/
  moves  : Nat
  /-- `POLY`, aligned (R16). -/
  poly   : Nat
  /-- `INIT`, aligned as `POLY` (R17). -/
  init   : Nat
  /-- `XOROUT`, truncated, right-aligned, never reversed (R18). -/
  xorout : Nat
  /-- `REFIN` (R19). -/
  refin  : Bool
  /-- `REFOUT` (R19). -/
  refout : Bool
  /-- `REG`, the CRC register (R21). -/
  reg    : Nat
  /-- `TABLE` when `WITHTABLE` = 1, else absent (R20, R22). -/
  table  : Option Table
deriving DecidableEq, Repr

/-- The offending parameter of an InvalidArgument response (60 R130, R132 to R134). -/
inductive Param where
  | width
  | buffer
  | range
deriving DecidableEq, Repr

/-- The block's only exceptions: its three error responses (60 R130). -/
inductive CommandError where
  /-- 60 R132 to R134. -/
  | invalidArgument (param : Param)
  /-- 60 R135. -/
  | notConfigured
  /-- 60 R136. -/
  | illegalCommand
deriving DecidableEq, Repr

/-- The response that ends a command (60 R130). -/
inductive Response where
  /-- OK with no information: CONFIG, UPD, UPDBUF, RST. -/
  | ok
  /-- OK of FIN: the value and the number of bytes it occupies. -/
  | okValue (value nbytes : Nat)
  /-- An error response. -/
  | error (e : CommandError)
deriving DecidableEq, Repr

/-- What the host may do to the block or to its own memory between two commands (70 R150, R160). -/
inductive HostEvent where
  /-- Issue one command frame: any byte string (30 R40, 70 R160). -/
  | frame (bytes : List Byte)
  /-- Write one byte of the host buffer space between commands (70 R160). -/
  | hostWrite (addr : Addr) (value : Byte)
  /-- Hardware reset between commands (70 R150). -/
  | hardwareReset
deriving DecidableEq, Repr

/-- The host buffer space `Mem`: listed cells by rising address; an unlisted address reads 0x00
(notes/assumptions/4.md). -/
abbrev Memory := List Host.Cell

/-- The whole state. `engine` is the block's architectural state (10_state R10), absent while no engine instance
exists (70 R150). `mem` is the host's memory (20_memory R30). The other three fields are the run of 70 R159. -/
structure State where
  /-- The engine instance; absent in phase Unconfigured (10_state R11, R27, 70 R150). -/
  engine    : Option Engine
  /-- `Mem` (20_memory R30, R31). -/
  mem       : Memory
  /-- What the host has issued and the block has not yet served, oldest first (notes/assumptions/1.md). -/
  pending   : List HostEvent
  /-- The responses sent so far, oldest first (60 R130, 70 R159). No rule of the block reads it. -/
  responses : List Response
  /-- The buffer addresses read so far, oldest first (20_memory R34). No rule of the block reads it. -/
  reads     : List Nat
deriving DecidableEq, Repr

/-- The machine right after hardware reset (70 R150): no engine instance, hence phase Unconfigured and every
register absent, "not as zero". Nothing issued, nothing answered, nothing read; memory lists nothing
(notes/assumptions/1.md, 2.md, 4.md, 5.md). -/
def State.reset : State :=
  { engine := none, mem := [], pending := [], responses := [], reads := [] }

/-- The reasons the machine can stop with a fault. There are none: every command ends with exactly one response
(60 R130), after which the next frame is executed normally (60 R139); there is no bus error (93 U9) and no runtime
error (20_memory R31). -/
inductive Fault where
deriving DecidableEq, Repr

/-- The reasons an instruction has no meaning. -/
inductive Refusal where
  /-- No meaning written yet. Raised by no arm of `exec`: every command of the table has its meaning. Safe. -/
  | notModelled (mnemonic : String)
deriving DecidableEq, Repr

end Sys2Proof.Machine
end

