-- ==== Sys2Proof/Machine/Flags.lean ====
section
/-! DEFINITION. The block has no status flags (10_state R25). What an update round tests instead are two combinational
bits of the register, which leave no state (10_state R25, 40_primitives R67). -/

namespace Sys2Proof.Machine

/-- `top_C(v)`: bit C - 1 of `v`, "the top bit" (40 R67). -/
def topBit (C v : Nat) : Bool := v.testBit (C - 1)

/-- `bot(v)`: bit 0 of `v`, "the bottom bit" (40 R67). -/
def botBit (v : Nat) : Bool := v.testBit 0

end Sys2Proof.Machine
end

