-- ==== Sys2Proof/Machine/Primitives.lean ====
section
/-! DEFINITION. The bit-reversal, truncation, alignment and shift primitives of 40_primitives, as total functions on
naturals; C is the container size in bits, w the width. -/

namespace Sys2Proof.Machine

/-- `trunc_w(v)`: the low `w` bits of `v` (40 R60). -/
def trunc (w v : Nat) : Nat := v % 2 ^ w

/-- `rev_N(v)`: the `N`-bit value whose bit i is bit N - 1 - i of `v` (40 R61). Bit 0 of `v` is the new top bit; the
rest of `v` is reversed below it. -/
def rev : Nat → Nat → Nat
  | 0, _     => 0
  | n + 1, v => (v % 2) * 2 ^ n + rev n (v / 2)

/-- `shl1_C(v)`: every bit one place up, the old top bit lost (40 R62). -/
def shl1 (C v : Nat) : Nat := (v <<< 1) % 2 ^ C

/-- `shr1_C(v)`: every bit one place down, the old bottom bit lost (40 R63). -/
def shr1 (v : Nat) : Nat := v >>> 1

/-- `align(C, w, refl, v)`: the internal form of a polynomial or initial value (40 R65, with 90 C1's reading):
left-aligned when forward, reversed within `w` bits and right-aligned when reflected. -/
def align (C w : Nat) (refl : Bool) (v : Nat) : Nat :=
  match refl with
  | false => trunc w v <<< (C - w)
  | true  => rev w (trunc w v)

/-- `msbyte_C(b)`: the byte in bits C-1..C-8 (40 R68). -/
def msbyte (C : Nat) (b : Byte) : Nat := b.toNat <<< (C - 8)

/-- `lsbyte(b)`: the byte in bits 7..0 (40 R68). -/
def lsbyte (b : Byte) : Nat := b.toNat

/-- `hibyte_C(v)`: the top byte of a C-bit value (40 R68). -/
def hibyte (C v : Nat) : Byte := BitVec.ofNat 8 (v >>> (C - 8))

/-- `lobyte(v)`: the bottom byte of `v` (40 R68). -/
def lobyte (v : Nat) : Byte := BitVec.ofNat 8 v

/-- `rev_8` of a byte: its bits in reversed order (40 R61). -/
def revByte (b : Byte) : Byte := BitVec.ofNat 8 (rev 8 b.toNat)

/-- One forward round: test the top bit, shift left, XOR the polynomial if the bit was set (41 R82, 42 R91). -/
def roundFwd (C poly t : Nat) : Nat :=
  if topBit C t then shl1 C t ^^^ poly else shl1 C t

/-- One reflected round: test the bottom bit, shift right, XOR the polynomial if the bit was set (41 R83, 42 R92). -/
def roundRef (poly t : Nat) : Nat :=
  if botBit t then shr1 t ^^^ poly else shr1 t

/-- The eight forward rounds of one byte (41 R82, 42 R91). -/
def roundsFwd (C poly t : Nat) : Nat := Nat.iterate (roundFwd C poly) 8 t

/-- The eight reflected rounds of one byte (41 R83, 42 R92). -/
def roundsRef (poly t : Nat) : Nat := Nat.iterate (roundRef poly) 8 t

end Sys2Proof.Machine
end

