-- ==== Sys2Proof/Machine/Operands.lean ====
section
/-! DEFINITION. The operand forms of CONFIG and UPDBUF: the signed width, the choice of the core and its container
(41 R76 to R79), the buffer descriptor and its checks in their order (42 R97). -/

namespace Sys2Proof.Machine

open Sys2Proof (CoreSel ConfigOperands BufferOperands)

/-! ## CONFIG -/

/-- `resolve(core, width)` (41 R77): AUTO picks the smallest container that holds the width. -/
def resolve (sel : CoreSel) (w : Nat) : Core :=
  match sel with
  | .c8    => .c8
  | .c16   => .c16
  | .c64   => .c64
  | .multi => .multi
  | .auto  => if w ≤ 8 then .c8 else if w ≤ 16 then .c16 else if w ≤ 64 then .c64 else .multi

/-- `capacity(core)`: the largest width the core accepts (41 R78). -/
def capacity : Core → Nat
  | .c8    => 8
  | .c16   => 16
  | .c64   => 64
  | .multi => Config.wmax

/-- The number of shards that exactly cover `w` bits, `ceil(w / SHARD_BITS)` (41 R79, 44 R115). -/
def shardCount (w : Nat) : Nat := (w + Config.shardBits - 1) / Config.shardBits

/-- `cbits(core, w)`: the bits of the container (41 R79). -/
def cbitsOf (c : Core) (w : Nat) : Nat :=
  match c with
  | .c8    => 8
  | .c16   => 16
  | .c64   => 64
  | .multi => Config.shardBits * shardCount w

/-- The `width` operand as a signed integer (30 R48, 41 R76). -/
def widthInt (op : ConfigOperands) : Int := op.width.toInt

/-- The `width` operand as a natural number, of use when it is positive. -/
def widthNat (op : ConfigOperands) : Nat := (widthInt op).toNat

/-- The core the operands resolve to (41 R77). -/
def configCore (op : ConfigOperands) : Core := resolve op.core (widthNat op)

/-- The width check of CONFIG: positive (41 R76), then within the capacity of the resolved core (41 R78). -/
def configError (op : ConfigOperands) : Option CommandError :=
  if widthInt op ≤ 0 then some (.invalidArgument .width)
  else if capacity (configCore op) < widthNat op then some (.invalidArgument .width)
  else none

/-! ## UPDBUF -/

/-- The `offset` operand as a signed integer (30 R48). -/
def offsetInt (buf : BufferOperands) : Int := buf.offset.toInt

/-- The `length` operand as a signed integer (30 R48). -/
def lengthInt (buf : BufferOperands) : Int := buf.length.toInt

/-- The argument checks of UPDBUF in their order (42 R97): absent buffer, descriptor past the top of the address
space, range out of bounds; the sums on mathematical integers. -/
def bufferError (buf : BufferOperands) : Option CommandError :=
  if buf.present = false then some (.invalidArgument .buffer)
  else if Config.memSize < buf.base.toNat + buf.size.toNat then some (.invalidArgument .buffer)
  else if offsetInt buf < 0 ∨ lengthInt buf < 0 ∨ (buf.size.toNat : Int) < offsetInt buf + lengthInt buf then
    some (.invalidArgument .range)
  else none

/-- The address of the first byte to consume, `base + offset` (42 R96). -/
def firstAddr (buf : BufferOperands) : Nat := buf.base.toNat + (offsetInt buf).toNat

/-- The number of bytes to consume (42 R96). -/
def byteCount (buf : BufferOperands) : Nat := (lengthInt buf).toNat

end Sys2Proof.Machine
end

