-- ==== Sys2Proof/Machine/Ops.lean ====
section
/-! DEFINITION. The named operations over memory and state: the host buffer space (20_memory R30, R31), the phase
(10_state R11), ending a command with a response (60 R130), TAKING AN ERROR RESPONSE (60 R138) and the return from it
(60 R139), the NotConfigured check (60 R135), and the host's events (70 R150, R160). -/

namespace Sys2Proof.Machine

/-! ## The host buffer space -/

/-- `MemRead(addr, 1)` (20 R31). An unlisted address reads 0x00: DESIGN CHOICE, unsafe, notes/assumptions/4.md. -/
def Memory.read : Memory → Nat → Byte
  | [], _            => 0
  | (a, b) :: m, addr => if a = addr then b else Memory.read m addr

/-- The host's own write of one byte (70 R160); the block never writes (20 R30). Keeps the canonical form: writing
what an unlisted address reads as removes the cell. -/
def Memory.write : Memory → Nat → Byte → Memory
  | [], addr, v => if v = 0 then [] else [(addr, v)]
  | (a, b) :: m, addr, v =>
    if addr < a then (if v = 0 then (a, b) :: m else (addr, v) :: (a, b) :: m)
    else if addr = a then (if v = 0 then m else (addr, v) :: m)
    else (a, b) :: Memory.write m addr v

/-- Canonical form from address `lo` on: addresses strictly rising and inside the 64-bit space, no cell equal to what
an unlisted address reads as. -/
def Memory.wfFrom : Nat → Memory → Bool
  | _, []           => true
  | lo, (a, b) :: m =>
    decide (lo ≤ a) && decide (a < Config.memSize) && decide (b ≠ 0) && Memory.wfFrom (a + 1) m

/-- The memory is in its canonical form. -/
def Memory.wf (m : Memory) : Bool := Memory.wfFrom 0 m

/-- The `n` bytes from address `addr` up, in ascending order (20 R32, R34). -/
def Memory.bytes (m : Memory) (addr : Nat) : Nat → List Byte
  | 0     => []
  | n + 1 => Memory.read m addr :: Memory.bytes m (addr + 1) n

/-! ## The phase -/

/-- `PHASE` (10 R11): Unconfigured while no engine instance exists. -/
def State.phase (s : State) : Phase :=
  match s.engine with
  | none   => .unconfigured
  | some e =>
    match e.phase with
    | .ready        => .ready
    | .accumulating => .accumulating

/-- `WITHTABLE` (10 R20): 1 exactly when the table holds a value. -/
def Engine.withtable (e : Engine) : Bool := e.table.isSome

/-! ## Ending a command -/

/-- The response is sent: the one response of the command (60 R130). -/
def State.respond (s : State) (r : Response) : State := { s with responses := s.responses ++ [r] }

/-- `respond r`: the command ends with response `r` after its state writes (00 R7). -/
def answer (r : Response) (s : State) : Host.Outcome State Fault Refusal := .next (s.respond r)

/-- `raise E`: TAKING AN ERROR RESPONSE (00 R7, 60 R138): nothing is saved, nothing of the block or of memory changes,
the error response is sent. There is no handler and no program counter to redirect. THE RETURN from it (60 R139) is
no operation: "there is nothing to return from", and the next step serves the next frame normally. -/
def raise (e : CommandError) (s : State) : Host.Outcome State Fault Refusal := answer (.error e) s

/-- The NotConfigured check of UPD, UPDBUF, FIN and RST (60 R135), before any operand is examined and any memory is
read; otherwise the command goes on with the engine instance. -/
def withEngine (s : State) (k : Engine → Host.Outcome State Fault Refusal) : Host.Outcome State Fault Refusal :=
  match s.engine with
  | none   => raise .notConfigured s
  | some e => k e

/-- The engine instance is created or changed (41 R87). -/
def State.setEngine (s : State) (e : Engine) : State := { s with engine := some e }

/-! ## The host's events -/

/-- The oldest event the host has issued, and the state without it; none when the block is idle (70 R153). -/
def State.takeEvent (s : State) : Option (HostEvent × State) :=
  match s.pending with
  | []         => none
  | ev :: rest => some (ev, { s with pending := rest })

/-- Idle between frames: all state is kept (60 R144). -/
def idle (s : State) : Host.Outcome State Fault Refusal := .next s

/-- The host writes one byte of its memory between commands (70 R160). -/
def State.hostWrite (s : State) (addr : Addr) (v : Byte) : State := { s with mem := s.mem.write addr.toNat v }

/-- Hardware reset (70 R150): phase Unconfigured, every register absent. The host's memory, what it has yet to issue
and the responses already sent are not the block's. -/
def State.hardwareReset (s : State) : State := { s with engine := none }

/-- The host issues a frame ahead of everything still pending. -/
def State.issue (s : State) (f : List Byte) : State := { s with pending := .frame f :: s.pending }

end Sys2Proof.Machine
end

