-- ==== Sys2Proof/Machine/Table.lean ====
section
/-! DEFINITION. The Sarwate table generator (41_configure_and_table R81 to R85). -/

namespace Sys2Proof.Machine

/-- `entry(C, POLY, 0, b)`: the byte in the most significant position, then eight forward rounds (41 R82). -/
def entryFwd (C poly : Nat) (b : Byte) : Nat := roundsFwd C poly (msbyte C b)

/-- `entry(C, POLY, 1, b)`: the byte in the least significant position, then eight reflected rounds (41 R83). -/
def entryRef (poly : Nat) (b : Byte) : Nat := roundsRef poly (lsbyte b)

/-- `entry(C, POLY, refin, b)` (41 R81): the orientation is fixed by `refin`. -/
def entry (C poly : Nat) (refin : Bool) (b : Byte) : Nat :=
  match refin with
  | false => entryFwd C poly b
  | true  => entryRef poly b

/-- The whole table: `TABLE[b] <- entry(C, POLY, REFIN, b)` for every byte `b` (41 R81). A function of the three
values alone (41 R85). -/
def Table.generate (C poly : Nat) (refin : Bool) : Table :=
  Vector.ofFn fun i : Fin 256 => entry C poly refin (BitVec.ofNat 8 i.val)

/-- `TABLE[b]` (00 R7, 10 R22). -/
def Table.lookup (t : Table) (b : Byte) : Nat := t.get ⟨b.toNat, b.isLt⟩

end Sys2Proof.Machine
end

