-- ==== Sys2Proof/Machine/Configure.lean ====
section
/-! DEFINITION. CONFIG (41_configure_and_table R75 to R88). -/

namespace Sys2Proof.Machine

/-- The engine instance a successful CONFIG creates on core `rc` (41 R75 steps 4 to 8): container R79, alignment R80,
table R81, register load and phase R86. -/
def Engine.create (rc : Core) (op : ConfigOperands) : Engine :=
  let w := widthNat op
  let c := cbitsOf rc w
  let poly := align c w op.refin op.poly
  let init := align c w op.refin op.init
  { phase  := .ready
    core   := rc
    cbits  := c
    width  := w
    moves  := c - w
    poly   := poly
    init   := init
    xorout := trunc w op.xorout
    refin  := op.refin
    refout := op.refout
    reg    := init
    table  := if op.withtable then some (Table.generate c poly op.refin) else none }

/-- CONFIG (41 R75): accepted in every phase, replaces the whole configuration (R87), writes nothing when it is
refused (R88). -/
def execConfig (op : ConfigOperands) (s : State) : Host.Outcome State Fault Refusal :=
  match configError op with
  | some err => raise err s
  | none     => answer .ok (s.setEngine (Engine.create (configCore op) op))

end Sys2Proof.Machine
end

