-- ==== Sys2Proof/Machine/Finalize.lean ====
section
/-! DEFINITION. FIN and RST: the output transform and the soft reset (43_finalize_reset R105 to R114). -/

namespace Sys2Proof.Machine

/-- The output transform of a register value `v` (43 R106): reversal of the whole container when `REFIN` differs from
`REFOUT`, right shift by m when the output is not reflected, XOR with `XOROUT`. -/
def Engine.transform (e : Engine) (v : Nat) : Nat :=
  let v1 := if e.refin ≠ e.refout then rev e.cbits v else v
  let v2 := if 0 < e.moves ∧ e.refout = false then v1 >>> e.moves else v1
  v2 ^^^ e.xorout

/-- The FIN value: the transform of a copy of `REG` (43 R105). -/
def Engine.finValue (e : Engine) : Nat := e.transform e.reg

/-- `nbytes = ceil(w / 8)`: the bytes the FIN value occupies (43 R107). -/
def Engine.nbytes (e : Engine) : Nat := (e.width + 7) / 8

/-- `REG <- INIT; PHASE <- Ready` (43 R108, R111). -/
def Engine.rewind (e : Engine) : Engine := { e with reg := e.init, phase := .ready }

/-- FIN (43 R105). -/
def execFin (s : State) : Host.Outcome State Fault Refusal :=
  withEngine s fun e => answer (.okValue e.finValue e.nbytes) (s.setEngine e.rewind)

/-- RST (43 R111). -/
def execRst (s : State) : Host.Outcome State Fault Refusal :=
  withEngine s fun e => answer .ok (s.setEngine e.rewind)

end Sys2Proof.Machine
end

