-- ==== Sys2Proof/Machine/Update.lean ====
section
/-! DEFINITION. UPD and UPDBUF, the byte update (42_update R90 to R103). -/

namespace Sys2Proof.Machine

/-! ## The four forms of the byte update -/

/-- `bitwise_fwd(r, b)` (42 R91): the byte into bits C-1..C-8, then eight forward rounds. -/
def bitwiseFwd (C poly r : Nat) (b : Byte) : Nat := roundsFwd C poly (r ^^^ msbyte C b)

/-- `bitwise_ref(r, b)` (42 R92): the byte into bits 7..0, then eight reflected rounds. -/
def bitwiseRef (poly r : Nat) (b : Byte) : Nat := roundsRef poly (r ^^^ lsbyte b)

/-- `table_fwd(r, b)` (42 R93): index by the top byte, shift left by 8, XOR the entry. -/
def tableFwd (C : Nat) (t : Table) (r : Nat) (b : Byte) : Nat :=
  (r <<< 8) % 2 ^ C ^^^ t.lookup (hibyte C r ^^^ b)

/-- `table_ref(r, b)` (42 R94): index by the bottom byte, shift right by 8, XOR the entry. -/
def tableRef (t : Table) (r : Nat) (b : Byte) : Nat :=
  r >>> 8 ^^^ t.lookup (lobyte r ^^^ b)

/-- `update_byte(r, b)` (42 R90): the form is fixed by `WITHTABLE` and `REFIN`. -/
def Engine.updateByte (e : Engine) (r : Nat) (b : Byte) : Nat :=
  match e.table, e.refin with
  | none, false   => bitwiseFwd e.cbits e.poly r b
  | none, true    => bitwiseRef e.poly r b
  | some t, false => tableFwd e.cbits t r b
  | some t, true  => tableRef t r b

/-- One byte is consumed: `REG <- update_byte(REG, b); PHASE <- Accumulating` (42 R90, R96). -/
def Engine.consume (e : Engine) (b : Byte) : Engine :=
  { e with reg := e.updateByte e.reg b, phase := .accumulating }

/-- The bytes `bs` are consumed in order (42 R98). -/
def Engine.feed (e : Engine) (bs : List Byte) : Engine := bs.foldl Engine.consume e

/-! ## UPD -/

/-- UPD (42 R90). -/
def execUpd (data : Byte) (s : State) : Host.Outcome State Fault Refusal :=
  withEngine s fun e => answer .ok (s.setEngine (e.consume data))

/-! ## UPDBUF -/

/-- The loop of UPDBUF (42 R96): `n` bytes from address `addr` up, each read once and consumed. With `n` = 0 nothing
changes (R99). -/
def consumeRange : (n addr : Nat) → Engine → State → State
  | 0, _, e, s        => s.setEngine e
  | n + 1, addr, e, s =>
    consumeRange n (addr + 1) (e.consume (s.mem.read addr)) { s with reads := s.reads ++ [addr] }

/-- UPDBUF (42 R96): NotConfigured, then the argument checks of R97, then the loop. -/
def execUpdbuf (buf : BufferOperands) (s : State) : Host.Outcome State Fault Refusal :=
  withEngine s fun e =>
    match bufferError buf with
    | some err => raise err s
    | none     => answer .ok (consumeRange (byteCount buf) (firstAddr buf) e s)

end Sys2Proof.Machine
end

