-- ==== Sys2Proof/Machine/Dispatch.lean ====
section
/-! DEFINITION. One arm per command of the opcode table (30_encoding R42). -/

namespace Sys2Proof.Machine

def exec (i : Instr) (s : State) : Host.Outcome State Fault Refusal :=
  match i with
  | .config op => Sys2Proof.Machine.execConfig op s
  | .upd data => Sys2Proof.Machine.execUpd data s
  | .updbuf buf => Sys2Proof.Machine.execUpdbuf buf s
  | .fin => Sys2Proof.Machine.execFin s
  | .rst => Sys2Proof.Machine.execRst s

end Sys2Proof.Machine
end

