-- ==== Sys2Proof/Machine/Step.lean ====
section
/-! DEFINITION. One step of the machine: the block serves the oldest event the host has issued, to completion
(70_reset_and_hazards R153, R159), or idles. -/

namespace Sys2Proof.Machine

/-- Serves one host event (00_scope R8, 70 R150, R153, R160). A frame that decodes is executed; an illegal frame is
answered IllegalCommand in every phase and changes no state (30 R49, 60 R136); with nothing issued the block idles
(60 R144). -/
def step (s : State) : Host.Outcome State Fault Refusal :=
  match s.takeEvent with
  | none => idle s
  | some (.frame f, s') =>
    match decode f with
    | .ok i    => exec i s'
    | .error _ => raise .illegalCommand s'
  | some (.hostWrite addr v, s') => .next (s'.hostWrite addr v)
  | some (.hardwareReset, s')    => .next s'.hardwareReset

/-- `s` with the frame whose bits are `w` (numbered as the opcode table numbers them) issued as the next frame the
block serves. -/
def State.withFetchWord (s : State) (nbits w : Nat) : State := s.issue (tableFrame nbits w)

end Sys2Proof.Machine
end

