-- ==== Sys2Proof/Machine/Assembler.lean ====
section
/-! DEFINITION. The assembler text of 30_encoding R54 and the pseudo-instructions of R55: notation for command
sequences. Nothing of the block depends on it. -/

namespace Sys2Proof.Machine

/-! ## Pseudo-instructions -/

/-- `UPDHEX b1 .. bn`: one UPD per byte (30 R55). -/
def updHex (bs : List Byte) : List Instr := bs.map Instr.upd

/-- `UPDSTR "c1..cn"`: one UPD per 7-bit ASCII code, no terminator; none for a character that has no such code
(30 R55). -/
def updStr (cs : List Char) : Option (List Instr) :=
  if cs.all (fun c => decide (c.toNat < 128)) then some (updHex (cs.map fun c => BitVec.ofNat 8 c.toNat)) else none

/-- `CRC <CONFIG operands> "text"`, the text as its bytes: CONFIG, one UPD per byte, FIN (30 R55). -/
def crcProgram (op : ConfigOperands) (bs : List Byte) : List Instr := .config op :: (updHex bs ++ [.fin])

/-- The host issues the frames of a command sequence, after what is already pending (70 R159). -/
def State.issueAll (s : State) (p : List Instr) : State :=
  { s with pending := s.pending ++ p.map fun i => .frame (encode i) }

/-! ## Words of a line -/

/-- A word outside quotation marks, in lower case, or the characters between two quotation marks. -/
inductive Tok where
  | word (cs : List Char)
  | quoted (cs : List Char)
deriving DecidableEq, Repr

/-- The quotation mark. -/
def quoteMark : Char := Char.ofNat 34

/-- The word collected so far, in reverse, if there is one. -/
def flushWord (cur : List Char) : List Tok := if cur.isEmpty then [] else [.word cur.reverse]

/-- Cuts a line into words; `;` starts a comment, keywords are case-insensitive (30 R54). None for an unclosed
quotation. -/
def lexFrom : Bool → List Char → List Char → Option (List Tok)
  | false, cur, []      => some (flushWord cur)
  | true, _, []         => none
  | true, cur, c :: cs  =>
    if c = quoteMark then (lexFrom false [] cs).map (fun ts => .quoted cur.reverse :: ts)
    else lexFrom true (c :: cur) cs
  | false, cur, c :: cs =>
    if c = ';' then some (flushWord cur)
    else if c = quoteMark then (lexFrom true [] cs).map (fun ts => flushWord cur ++ ts)
    else if c = ' ' ∨ c = '\t' ∨ c = '\r' then (lexFrom false [] cs).map (fun ts => flushWord cur ++ ts)
    else lexFrom false (c.toLower :: cur) cs

/-! ## Numbers -/

/-- The value of a digit, 16 or more for a character that is none. -/
def digitValue (c : Char) : Nat :=
  if '0'.toNat ≤ c.toNat ∧ c.toNat ≤ '9'.toNat then c.toNat - '0'.toNat
  else if 'a'.toNat ≤ c.toNat ∧ c.toNat ≤ 'f'.toNat then c.toNat - 'a'.toNat + 10
  else 16

/-- A non-empty string of digits of the base. -/
def parseDigits (base : Nat) (cs : List Char) : Option Nat :=
  if cs.isEmpty ∨ cs.any (fun c => decide (base ≤ digitValue c)) then none
  else some (cs.foldl (fun acc c => acc * base + digitValue c) 0)

/-- An unsigned integer, decimal or `0x` hexadecimal (30 R54). -/
def parseNat : List Char → Option Nat
  | '0' :: 'x' :: cs => parseDigits 16 cs
  | cs               => parseDigits 10 cs

/-- A hexadecimal operand, right-aligned, `0x` optional (30 R54; notes/assumptions/8.md). -/
def parseHex : List Char → Option Nat
  | '0' :: 'x' :: cs => parseDigits 16 cs
  | cs               => parseDigits 16 cs

/-- A signed integer that fits 32 bits in two's complement (30 R48, R54). -/
def parseInt32 (cs : List Char) : Option (BitVec 32) :=
  match cs with
  | '-' :: ds => (parseNat ds).bind fun n => if n ≤ 2 ^ 31 then some (BitVec.ofInt 32 (-(n : Int))) else none
  | ds        => (parseNat ds).bind fun n => if n < 2 ^ 31 then some (BitVec.ofNat 32 n) else none

/-- A one-bit operand, 0 or 1. -/
def parseBit (cs : List Char) : Option Bool :=
  if cs = ['0'] then some false else if cs = ['1'] then some true else none

/-- A byte operand (30 R54). -/
def parseByte : Tok → Option Byte
  | .word cs  => (parseNat cs).bind fun n => if n < 256 then some (BitVec.ofNat 8 n) else none
  | .quoted _ => none

/-! ## Operands -/

/-- What follows `prefix` in `cs`. -/
def stripPrefix : List Char → List Char → Option (List Char)
  | [], cs           => some cs
  | p :: ps, c :: cs => if p = c then stripPrefix ps cs else none
  | _ :: _, []       => none

/-- The value of an operand `key=value`. -/
def keyed (key : String) : Tok → Option (List Char)
  | .word cs  => stripPrefix key.toList cs
  | .quoted _ => none

/-- The `core` operand (30 R54). -/
def parseCore (cs : List Char) : Option CoreSel :=
  if cs = "auto".toList then some .auto
  else if cs = "c8".toList then some .c8
  else if cs = "c16".toList then some .c16
  else if cs = "c64".toList then some .c64
  else if cs = "multi".toList then some .multi
  else none

/-- The number of bytes a value occupies. -/
def byteLength (v : Nat) : Nat := if v = 0 then 0 else v.log2 / 8 + 1

/-- The default of `nb`: the smallest integer ≥ 1 such that 8·nb bits hold `width` bits, when `width` > 0, and each of
the three values (30 R54). -/
def defaultNb (width : BitVec 32) (poly init xorout : Nat) : Nat :=
  max (max 1 ((width.toInt.toNat + 7) / 8)) (max (byteLength poly) (max (byteLength init) (byteLength xorout)))

/-- The `nb` operand, or its default (30 R54). -/
def parseNb (dflt : Nat) : List Tok → Option Nat
  | []  => some dflt
  | [t] => (keyed "nb=" t).bind parseNat
  | _   => none

/-- The operands of CONFIG in the order of 30 R54; none unless the frame can carry them. -/
def parseConfig : List Tok → Option ConfigOperands
  | core :: width :: poly :: init :: xorout :: refin :: refout :: table :: rest => do
    let core ← (keyed "core=" core).bind parseCore
    let width ← (keyed "width=" width).bind parseInt32
    let poly ← (keyed "poly=" poly).bind parseHex
    let init ← (keyed "init=" init).bind parseHex
    let xorout ← (keyed "xorout=" xorout).bind parseHex
    let refin ← (keyed "refin=" refin).bind parseBit
    let refout ← (keyed "refout=" refout).bind parseBit
    let table ← (keyed "table=" table).bind parseBit
    let nb ← parseNb (defaultNb width poly init xorout) rest
    let op : ConfigOperands :=
      { core := core, refin := refin, refout := refout, withtable := table, width := width
        nb := BitVec.ofNat 16 nb, poly := poly, init := init, xorout := xorout }
    if nb ≤ Config.nbMax ∧ op.wellFormed = true then some op else none
  | _ => none

/-- The `buf` operand (30 R54): `null`, or `base:size`. -/
def parseBuf (cs : List Char) : Option (Bool × Addr × BitVec 32) :=
  if cs = "null".toList then some (false, 0, 0)
  else
    let base := cs.takeWhile (fun c => c ≠ ':')
    (parseNat base).bind fun b =>
      (stripPrefix [':'] (cs.drop base.length)).bind fun rest =>
        (parseNat rest).bind fun z =>
          if b < 2 ^ 64 ∧ z < 2 ^ 32 then some (true, BitVec.ofNat 64 b, BitVec.ofNat 32 z) else none

/-- The operands of UPDBUF (30 R54). -/
def parseBuffer : List Tok → Option BufferOperands
  | [buf, off, len] => do
    let d ← (keyed "buf=" buf).bind parseBuf
    let off ← (keyed "off=" off).bind parseInt32
    let len ← (keyed "len=" len).bind parseInt32
    some { present := d.1, base := d.2.1, size := d.2.2, offset := off, length := len }
  | _ => none

/-- The text of `CRC`, its last word. -/
def lastQuoted (ts : List Tok) : Option (List Char) :=
  match ts.getLast? with
  | some (.quoted cs) => some cs
  | _                 => none

/-! ## Lines and programs -/

/-- The commands of one line (30 R54, R55); none for a line that is neither blank nor a command. -/
def assembleTokens : List Tok → Option (List Instr)
  | []              => some []
  | .word m :: args =>
    if m = "config".toList then (parseConfig args).map (fun op => [.config op])
    else if m = "upd".toList then
      match args with
      | [t] => (parseByte t).map (fun b => [.upd b])
      | _   => none
    else if m = "updbuf".toList then (parseBuffer args).map (fun buf => [.updbuf buf])
    else if m = "fin".toList then (if args.isEmpty then some [.fin] else none)
    else if m = "rst".toList then (if args.isEmpty then some [.rst] else none)
    else if m = "updhex".toList then (args.mapM parseByte).map updHex
    else if m = "updstr".toList then
      match args with
      | [.quoted cs] => updStr cs
      | _            => none
    else if m = "crc".toList then
      match lastQuoted args with
      | none    => none
      | some cs => do
        let op ← parseConfig args.dropLast
        let upds ← updStr cs
        some (.config op :: (upds ++ [.fin]))
    else none
  | .quoted _ :: _ => none

/-- The commands of one line of text. -/
def assembleLine (line : String) : Option (List Instr) := (lexFrom false [] line.toList).bind assembleTokens

/-- The commands of a program, one line each (30 R54). -/
def assemble (lines : List String) : Option (List Instr) := (lines.mapM assembleLine).map List.flatten

end Sys2Proof.Machine
end

