-- ==== Sys2Proof/Machine/Shards.lean ====
section
/-! DEFINITION. The multi-word core at the level of its shards (44_multiword R115 to R124). `exec` runs every core on the
C-bit value, as 44 R125 allows; this file gives the same commands on arrays of 8-bit shards, and the statements say
that the two agree: `multiExec` is what a command does on arrays, `Shards.val` and `ShardEngine.toEngine` are the map to
the C-bit values of `exec` (44 R125). -/

namespace Sys2Proof.Machine

/-- An array of shards, most significant first (44 R115, `SHARD_BITS` = 8). -/
abbrev Shards := List Byte

/-! ## Shard-level operations -/

/-- `val(sh)`: the C-bit value of the array (44 R115). -/
def Shards.val (sh : Shards) : Nat := beNat sh

/-- Shift left one bit across shards (44 R116): the bottom bit of a shard is the top bit of the next lower one. -/
def Shards.shl1 : Shards → Shards
  | []        => []
  | a :: rest => ((a <<< 1) ||| (if (rest.headD 0).getLsbD 7 then 1 else 0)) :: Shards.shl1 rest

/-- `Shards.shr1` below a shard whose evicted bit is `carry`. -/
def Shards.shr1From : Bool → Shards → Shards
  | _, []            => []
  | carry, a :: rest => ((a >>> 1) ||| (if carry then 0x80 else 0)) :: Shards.shr1From (a.getLsbD 0) rest

/-- Shift right one bit across shards (44 R117): the top bit of a shard is the bottom bit of the next higher one. -/
def Shards.shr1 (sh : Shards) : Shards := Shards.shr1From false sh

/-- Shard-wise XOR (44 R118). -/
def Shards.xor (a b : Shards) : Shards := List.zipWith (fun x y => x ^^^ y) a b

/-- Full-width bit reversal (44 R119, with 90 C4's reading): the order of the shards and the bits within each. -/
def Shards.rev (sh : Shards) : Shards := (sh.map revByte).reverse

/-- Shift left by `k` < 8 bits across shards (44 R120). -/
def Shards.shl (k : Nat) : Shards → Shards
  | []        => []
  | a :: rest => ((a <<< k) ||| (rest.headD 0 >>> (8 - k))) :: Shards.shl k rest

/-- `Shards.shr` below the shard `above`. -/
def Shards.shrFrom (k : Nat) : Byte → Shards → Shards
  | _, []            => []
  | above, a :: rest => ((a >>> k) ||| (above <<< (8 - k))) :: Shards.shrFrom k a rest

/-- Shift right by `k` < 8 bits across shards (44 R120). -/
def Shards.shr (k : Nat) (sh : Shards) : Shards := Shards.shrFrom k 0 sh

/-- Clears the `m` high bits of shard 0 (44 R120). -/
def Shards.trunc (m : Nat) : Shards → Shards
  | []        => []
  | a :: rest => BitVec.ofNat 8 (a.toNat % 2 ^ (8 - m)) :: rest

/-- An operand's bytes as exactly `S` shards (44 R120): cut to the last `S`, or extended with zero shards in front. -/
def Shards.fit (S : Nat) (x : List Byte) : Shards := List.replicate (S - x.length) 0 ++ x.drop (x.length - S)

/-- The container's top bit, `sh[0][SB-1]` (44 R118). -/
def Shards.topBit (sh : Shards) : Bool := (sh.headD 0).getLsbD 7

/-- The container's bottom bit, `sh[S-1][0]` (44 R118). -/
def Shards.botBit (sh : Shards) : Bool := (sh.getLastD 0).getLsbD 0

/-- The byte into the most significant shard (44 R121). -/
def Shards.xorFirst (b : Byte) : Shards → Shards
  | []        => []
  | a :: rest => (a ^^^ b) :: rest

/-- The byte into the least significant shard (44 R121). -/
def Shards.xorLast (b : Byte) (sh : Shards) : Shards :=
  match sh with
  | [] => []
  | _  => sh.dropLast ++ [sh.getLastD 0 ^^^ b]

/-! ## Rounds, table and byte update -/

/-- One forward round on shards (44 R121). -/
def Shards.roundFwd (poly sh : Shards) : Shards :=
  if Shards.topBit sh then Shards.xor (Shards.shl1 sh) poly else Shards.shl1 sh

/-- One reflected round on shards (44 R121). -/
def Shards.roundRef (poly sh : Shards) : Shards :=
  if Shards.botBit sh then Shards.xor (Shards.shr1 sh) poly else Shards.shr1 sh

/-- Bit-by-bit update, forward (44 R121). -/
def Shards.bitwiseFwd (poly sh : Shards) (b : Byte) : Shards :=
  Nat.iterate (Shards.roundFwd poly) 8 (Shards.xorFirst b sh)

/-- Bit-by-bit update, reflected (44 R121). -/
def Shards.bitwiseRef (poly sh : Shards) (b : Byte) : Shards :=
  Nat.iterate (Shards.roundRef poly) 8 (Shards.xorLast b sh)

/-- A table of shard arrays (44 R123). -/
abbrev ShardTable := Vector Shards 256

/-- A table entry on shards (44 R123): the seed byte in the first or last of `S` shards, then eight rounds. -/
def Shards.entry (S : Nat) (poly : Shards) (refin : Bool) (b : Byte) : Shards :=
  match refin with
  | false => Shards.bitwiseFwd poly (List.replicate S 0) b
  | true  => Shards.bitwiseRef poly (List.replicate S 0) b

/-- The 256 entries (41 R81, 44 R123). -/
def ShardTable.generate (S : Nat) (poly : Shards) (refin : Bool) : ShardTable :=
  Vector.ofFn fun i : Fin 256 => Shards.entry S poly refin (BitVec.ofNat 8 i.val)

/-- `TABLE[b]` on shards. -/
def ShardTable.lookup (t : ShardTable) (b : Byte) : Shards := t.get ⟨b.toNat, b.isLt⟩

/-- Table-driven update, forward (44 R122, with 90 C5's reading): every shard moves one place up, zero enters. -/
def Shards.tableFwd (t : ShardTable) (sh : Shards) (b : Byte) : Shards :=
  Shards.xor (sh.drop 1 ++ [0]) (ShardTable.lookup t (sh.headD 0 ^^^ b))

/-- Table-driven update, reflected (44 R122, with 90 C5's reading): every shard moves one place down, zero enters. -/
def Shards.tableRef (t : ShardTable) (sh : Shards) (b : Byte) : Shards :=
  Shards.xor (0 :: sh.dropLast) (ShardTable.lookup t (sh.getLastD 0 ^^^ b))

/-! ## The engine on shards -/

/-- The engine instance of core MULTI with its registers as shard arrays (44 R115). -/
structure ShardEngine where
  phase  : Activity
  width  : Nat
  moves  : Nat
  poly   : Shards
  init   : Shards
  xorout : Shards
  refin  : Bool
  refout : Bool
  reg    : Shards
  table  : Option ShardTable
deriving DecidableEq, Repr

/-- The engine instance that `e` represents: `val` of each array, C = 8 × S (44 R115, R125). -/
def ShardEngine.toEngine (e : ShardEngine) : Engine :=
  { phase  := e.phase
    core   := .multi
    cbits  := 8 * e.reg.length
    width  := e.width
    moves  := e.moves
    poly   := Shards.val e.poly
    init   := Shards.val e.init
    xorout := Shards.val e.xorout
    refin  := e.refin
    refout := e.refout
    reg    := Shards.val e.reg
    table  := e.table.map fun t => t.map Shards.val }

/-- `POLY` and `INIT` from an operand's bytes (44 R120). -/
def Shards.align (S m : Nat) (refl : Bool) (x : List Byte) : Shards :=
  match refl with
  | false => Shards.shl m (Shards.trunc m (Shards.fit S x))
  | true  => Shards.rev (Shards.shl m (Shards.trunc m (Shards.fit S x)))

/-- CONFIG on core MULTI, on shards (41 R75, 44 R120, R123), from the operands' `nb` bytes. -/
def ShardEngine.create (op : ConfigOperands) : ShardEngine :=
  let w := widthNat op
  let S := shardCount w
  let m := 8 * S - w
  let poly := Shards.align S m op.refin (beBytes op.nb.toNat op.poly)
  let init := Shards.align S m op.refin (beBytes op.nb.toNat op.init)
  { phase  := .ready
    width  := w
    moves  := m
    poly   := poly
    init   := init
    xorout := Shards.trunc m (Shards.fit S (beBytes op.nb.toNat op.xorout))
    refin  := op.refin
    refout := op.refout
    reg    := init
    table  := if op.withtable then some (ShardTable.generate S poly op.refin) else none }

/-- The byte update on shards (44 R121, R122). -/
def ShardEngine.updateByte (e : ShardEngine) (sh : Shards) (b : Byte) : Shards :=
  match e.table, e.refin with
  | none, false   => Shards.bitwiseFwd e.poly sh b
  | none, true    => Shards.bitwiseRef e.poly sh b
  | some t, false => Shards.tableFwd t sh b
  | some t, true  => Shards.tableRef t sh b

/-- One byte is consumed, on shards. -/
def ShardEngine.consume (e : ShardEngine) (b : Byte) : ShardEngine :=
  { e with reg := e.updateByte e.reg b, phase := .accumulating }

/-- The FIN value as a shard array (44 R124). -/
def ShardEngine.finShards (e : ShardEngine) : Shards :=
  let v1 := if e.refin ≠ e.refout then Shards.rev e.reg else e.reg
  let v2 := if 0 < e.moves ∧ e.refout = false then Shards.shr e.moves v1 else v1
  Shards.xor v2 e.xorout

/-- The register load of FIN and RST, shard by shard (44 R124). -/
def ShardEngine.rewind (e : ShardEngine) : ShardEngine := { e with reg := e.init, phase := .ready }

/-- The bytes `bs` are consumed in order, on shards (42 R98). -/
def ShardEngine.feed (e : ShardEngine) (bs : List Byte) : ShardEngine := bs.foldl ShardEngine.consume e

/-! ## The commands on shards -/

/-- What a command does on core MULTI: the engine instance it leaves, its response, the addresses it reads. -/
structure MultiResult where
  engine   : Option ShardEngine
  response : Response
  reads    : List Nat
deriving DecidableEq, Repr

/-- A command that ends in an error response leaves the engine instance and reads nothing (60 R138). -/
def multiRaise (err : CommandError) (engine : Option ShardEngine) : MultiResult := ⟨engine, .error err, []⟩

/-- CONFIG on shards (41 R75, 44 R120, R123). -/
def multiConfig (op : ConfigOperands) (engine : Option ShardEngine) : MultiResult :=
  match configError op with
  | some err => multiRaise err engine
  | none     => ⟨some (ShardEngine.create op), .ok, []⟩

/-- UPD on shards (42 R90, 44 R121, R122). -/
def multiUpd (data : Byte) (e : ShardEngine) : MultiResult := ⟨some (e.consume data), .ok, []⟩

/-- UPDBUF on shards (42 R96, 44 R121, R122). -/
def multiUpdbuf (buf : BufferOperands) (e : ShardEngine) (mem : Memory) : MultiResult :=
  match bufferError buf with
  | some err => multiRaise err (some e)
  | none     =>
    ⟨some (e.feed (mem.bytes (firstAddr buf) (byteCount buf))), .ok, List.range' (firstAddr buf) (byteCount buf)⟩

/-- FIN on shards (43 R105, 44 R124): the array is the value field, one byte a shard. -/
def multiFin (e : ShardEngine) : MultiResult :=
  ⟨some e.rewind, .okValue (Shards.val e.finShards) e.finShards.length, []⟩

/-- RST on shards (43 R111, 44 R124). -/
def multiRst (e : ShardEngine) : MultiResult := ⟨some e.rewind, .ok, []⟩

/-- The NotConfigured check (60 R135) on shards. -/
def multiWithEngine (engine : Option ShardEngine) (k : ShardEngine → MultiResult) : MultiResult :=
  match engine with
  | none   => multiRaise .notConfigured none
  | some e => k e

/-- Every command of the MULTI core on shard arrays (44 R125): the engine instance and the memory before give the
result. -/
def multiExec (i : Instr) (engine : Option ShardEngine) (mem : Memory) : MultiResult :=
  match i with
  | .config op  => multiConfig op engine
  | .upd data   => multiWithEngine engine (multiUpd data)
  | .updbuf buf => multiWithEngine engine fun e => multiUpdbuf buf e mem
  | .fin        => multiWithEngine engine multiFin
  | .rst        => multiWithEngine engine multiRst

end Sys2Proof.Machine
end

