-- ==== Sys2Proof/Machine/Wire.lean ====
section
/-! DEFINITION. The byte frames of the responses (30_encoding R51 to R53). -/

namespace Sys2Proof.Machine

/-- The code of the offending parameter (30 R53). -/
def Param.code : Param → Byte
  | .width  => 0x01
  | .buffer => 0x02
  | .range  => 0x03

/-- The status byte of a response (30 R51). -/
def Response.status : Response → Byte
  | .ok                         => 0x00
  | .okValue _ _                => 0x00
  | .error (.invalidArgument _) => 0x01
  | .error .notConfigured       => 0x02
  | .error .illegalCommand      => 0x03

/-- What follows the status byte (30 R52, R53): for FIN `nbytes` as two bytes and the value as `nbytes` bytes, both
big-endian; for InvalidArgument the parameter code; else nothing. -/
def Response.body : Response → List Byte
  | .ok                         => []
  | .okValue value nbytes       => beBytes 2 nbytes ++ beBytes nbytes value
  | .error (.invalidArgument p) => [p.code]
  | .error .notConfigured       => []
  | .error .illegalCommand      => []

/-- The response frame (30 R51 to R53). -/
def Response.wire (r : Response) : List Byte := r.status :: r.body

end Sys2Proof.Machine
end

