-- ==== Sys2Proof/Safety.lean ====
section
/-! DEFINITION. What counts as a safe state, and the terms the statements use: the register invariant (10_state R26), the
invariant of the whole state, illegal frames (30_encoding R49), the value a CRC computation yields (30 R55). -/

namespace Sys2Proof.Machine

/-! ## Invariants -/

/-- The w significant bits of a C-bit value lie in the place the orientation fixes and every other bit is zero
(10 R26): forward in bits C-1..m, reflected in bits w-1..0. -/
abbrev Placed (refin : Bool) (C w v : Nat) : Prop :=
  if refin then v < 2 ^ w else v < 2 ^ C ∧ v % 2 ^ (C - w) = 0

/-- What holds of every engine instance at every command boundary. -/
structure Engine.Good (e : Engine) : Prop where
  /-- 10 R14. -/
  width_pos : 1 ≤ e.width
  /-- 10 R14, 41 R78. -/
  width_le : e.width ≤ capacity e.core
  /-- 10 R13, 41 R79. -/
  cbits_eq : e.cbits = cbitsOf e.core e.width
  /-- 10 R15. -/
  moves_eq : e.moves = e.cbits - e.width
  /-- 10 R16, R26. -/
  poly_placed : Placed e.refin e.cbits e.width e.poly
  /-- 10 R17, R26. -/
  init_placed : Placed e.refin e.cbits e.width e.init
  /-- 10 R18. -/
  xorout_lt : e.xorout < 2 ^ e.width
  /-- 10 R26. -/
  reg_placed : Placed e.refin e.cbits e.width e.reg
  /-- 41 R81, R85: the table, where there is one, is the generated one. -/
  table_eq : ∀ t, e.table = some t → t = Table.generate e.cbits e.poly e.refin
  /-- 10 R11: in phase Ready `REG` = `INIT`. -/
  ready_reg : e.phase = .ready → e.reg = e.init

/-- The invariant of the machine: memory in canonical form, and a good engine instance where there is one. -/
structure State.Inv (s : State) : Prop where
  mem_wf : s.mem.wf = true
  engine_good : ∀ e, s.engine = some e → e.Good

/-- A CONFIG that is not refused: a positive width within the capacity of the resolved core (41 R76, R78). -/
abbrev Admissible (op : ConfigOperands) : Prop :=
  0 < op.width.toInt ∧ widthNat op ≤ capacity (configCore op)

/-- An UPDBUF that is not refused in a configured block (42 R97). -/
abbrev InRange (buf : BufferOperands) : Prop :=
  buf.present = true ∧ buf.base.toNat + buf.size.toNat ≤ 2 ^ 64 ∧
    0 ≤ buf.offset.toInt ∧ 0 ≤ buf.length.toInt ∧ buf.offset.toInt + buf.length.toInt ≤ buf.size.toNat

/-! ## Frames -/

/-- Byte `i` of a frame as a number, 0 where the frame is shorter. -/
def frameByte (f : List Byte) (i : Nat) : Nat := (f.getD i 0).toNat

/-- A frame is illegal, in the words of 30 R49: empty; opcode 0x00 or 0x06 .. 0xFF; not the length its opcode and `nb`
require; reserved `core` value or reserved bits. -/
abbrev IllegalFrame (f : List Byte) : Prop :=
  f = [] ∨ frameByte f 0 = 0 ∨ 6 ≤ frameByte f 0 ∨
  (frameByte f 0 = 1 ∧ (f.length < 8 ∨ f.length ≠ 8 + 3 * (256 * frameByte f 6 + frameByte f 7) ∨
    5 ≤ frameByte f 1 / 32 ∨ frameByte f 1 % 4 ≠ 0)) ∨
  (frameByte f 0 = 2 ∧ f.length ≠ 2) ∨
  (frameByte f 0 = 3 ∧ (f.length ≠ 22 ∨ 2 ≤ frameByte f 1)) ∨
  (frameByte f 0 = 4 ∧ f.length ≠ 1) ∨
  (frameByte f 0 = 5 ∧ f.length ≠ 1)

/-- Which response a command can give (60 R131). -/
def CanAnswer : Instr → Response → Prop
  | .config _, .ok                                => True
  | .config _, .error (.invalidArgument .width)   => True
  | .upd _, .ok                                   => True
  | .upd _, .error .notConfigured                 => True
  | .updbuf _, .ok                                => True
  | .updbuf _, .error (.invalidArgument .buffer)  => True
  | .updbuf _, .error (.invalidArgument .range)   => True
  | .updbuf _, .error .notConfigured              => True
  | .fin, .okValue _ _                            => True
  | .fin, .error .notConfigured                   => True
  | .rst, .ok                                     => True
  | .rst, .error .notConfigured                   => True
  | _, _                                          => False

/-! ## Computations -/

/-- The FIN value of a fresh engine instance after the bytes `bs`: what the pseudo-instruction CRC yields
(30 R55, 43 R105, R113). -/
def crcValue (op : ConfigOperands) (bs : List Byte) : Nat :=
  ((Engine.create (configCore op) op).feed bs).finValue

/-- The frames of UPD commands over the bytes `bs` (42 R98). -/
def updFrames (bs : List Byte) : List HostEvent := bs.map fun b => .frame (encode (.upd b))

/-- A command that consumes bytes in a configured block: any UPD, an UPDBUF in range (42 R98). -/
def Consumes : Instr → Prop
  | .config _   => False
  | .upd _      => True
  | .updbuf buf => InRange buf
  | .fin        => False
  | .rst        => False

/-- The bytes such a command consumes, in order, from memory `m` (42 R90, R96). -/
def consumedBytes (m : Memory) : Instr → List Byte
  | .config _   => []
  | .upd b      => [b]
  | .updbuf buf => m.bytes (firstAddr buf) (byteCount buf)
  | .fin        => []
  | .rst        => []

/-- The addresses such a command reads, in order (20 R34). -/
def consumedAddrs : Instr → List Nat
  | .config _   => []
  | .upd _      => []
  | .updbuf buf => List.range' (firstAddr buf) (byteCount buf)
  | .fin        => []
  | .rst        => []

/-! ## The multi-word core -/

/-- The arrays of a shard-level engine instance have the one length that exactly covers `width` bits (44 R115), and
m = C - w < 8 (41 R79). -/
structure ShardEngine.Shaped (e : ShardEngine) : Prop where
  width_pos : 1 ≤ e.width
  reg_length : e.reg.length = shardCount e.width
  poly_length : e.poly.length = shardCount e.width
  init_length : e.init.length = shardCount e.width
  xorout_length : e.xorout.length = shardCount e.width
  moves_eq : e.moves = 8 * shardCount e.width - e.width
  table_length : ∀ t, e.table = some t → ∀ b, (ShardTable.lookup t b).length = shardCount e.width

/-- The shard arrays `se` represent the engine instance `e` of core MULTI (44 R115, R125): its registers are the `val` of
the arrays, which are shaped. -/
structure Represents (se : Option ShardEngine) (e : Option Engine) : Prop where
  engine_eq : e = se.map ShardEngine.toEngine
  shaped : ∀ x, se = some x → x.Shaped

end Sys2Proof.Machine
end

