-- ==== Sys2Proof/Certificates/Slice0/Obligations.lean ====
section
/-! DEFINITION. The statements for the provers, each from the numbered rules its docstring names. Values of C bits are
naturals, as in the rules. -/

open Sys2Proof Sys2Proof.Machine

/-! ## Primitives (40_primitives) -/

/-- 40 R60, R62, R63, bit by bit: truncation keeps exactly the low w bits, is the identity below 2^w and idempotent;
the left shift moves every bit one place up inside C bits and clears bit 0; the right shift moves every bit one place
down. -/
def Obligations.TruncationAndShiftsBitByBit : Prop :=
  (∀ w v i, 1 ≤ w → (trunc w v).testBit i = (decide (i < w) && v.testBit i)) ∧
  (∀ w v, 1 ≤ w → v < 2 ^ w → trunc w v = v) ∧
  (∀ w v, 1 ≤ w → trunc w (trunc w v) = trunc w v) ∧
  (∀ C v i, 1 ≤ C → v < 2 ^ C → (shl1 C v).testBit i = (decide (1 ≤ i ∧ i < C) && v.testBit (i - 1))) ∧
  (∀ C v, 1 ≤ C → v < 2 ^ C → shl1 C v < 2 ^ C) ∧
  (∀ v i, (shr1 v).testBit i = v.testBit (i + 1)) ∧
  (∀ C v, 1 ≤ C → v < 2 ^ C → (shr1 v).testBit (C - 1) = false)

/-- 40 R61: bit i of `rev_N(v)` is bit N - 1 - i of v, the result has N bits, and the laws of the rule. -/
def Obligations.ReversalMovesEveryBitAndIsAnInvolution : Prop :=
  ∀ N, 1 ≤ N →
    (∀ v i, v < 2 ^ N → i < N → (rev N v).testBit i = v.testBit (N - 1 - i)) ∧
    (∀ v, v < 2 ^ N → rev N v < 2 ^ N) ∧
    (∀ v, v < 2 ^ N → rev N (rev N v) = v) ∧
    (∀ a b, a < 2 ^ N → b < 2 ^ N → rev N (a ^^^ b) = rev N a ^^^ rev N b) ∧
    rev N 0 = 0 ∧ rev N (2 ^ N - 1) = 2 ^ N - 1 ∧ (∀ v, v < 2 → rev 1 v = v)

/-- 40 R66: reversing a left-aligned value across the container gives the w-bit reversal right-aligned, and
reversing a right-aligned one gives it left-aligned. -/
def Obligations.ContainerReversalSwapsAlignment : Prop :=
  ∀ C w v, 1 ≤ w → w ≤ C → v < 2 ^ w →
    rev C (v <<< (C - w)) = rev w v ∧ rev C v = rev w v <<< (C - w)

/-- 40 R65, 10 R16, R26: the forward form is the operand's low w bits shifted left by m, its bit i in place m + i; the
reflected form is these bits reversed within w bits, bit i in place w - 1 - i; every other bit is zero, the result is
below 2^C, the operand's bits from w up are ignored, and the reflected form is also the left-aligned form reversed
across the container (90 C1). -/
def Obligations.AlignmentPlacesTheSignificantBits : Prop :=
  ∀ C w v, 1 ≤ w → w ≤ C →
    align C w false v = (v % 2 ^ w) <<< (C - w) ∧
    align C w true v = rev w (v % 2 ^ w) ∧
    (∀ i, i < w → (align C w false v).testBit (C - w + i) = v.testBit i ∧
      (align C w true v).testBit (w - 1 - i) = v.testBit i) ∧
    (∀ i, i < C - w → (align C w false v).testBit i = false ∧ (align C w true v).testBit (w + i) = false) ∧
    (∀ refl, Placed refl C w (align C w refl v) ∧ align C w refl v < 2 ^ C ∧
      align C w refl v = align C w refl (trunc w v)) ∧
    align C w true v = rev C (align C w false v)

/-! ## Frames (30_encoding) -/

/-- Decode and encode agree, for every command and every value of every operand (30 R43 to R48, R50). -/
def Obligations.DecodeOfEncodeIsTheCommand : Prop :=
  ∀ i : Instr, i.wellFormed = true → decode (encode i) = .ok i

/-- No two frames mean the same command and no bit of a frame is dropped: a frame that decodes is the encoding of the
well-formed command it decodes to (30 R43 to R50). -/
def Obligations.EncodeOfDecodeIsTheFrame : Prop :=
  ∀ (f : List Byte) (i : Instr), decode f = .ok i → i.wellFormed = true ∧ encode i = f

/-- The worked encodings of 30 R56, both ways, all ten rows. -/
def Obligations.WorkedEncodingsDecode : Prop :=
  ∀ p ∈ ([
    ([0x01, 0x04, 0x00, 0x00, 0x00, 0x08, 0x00, 0x01, 0x07, 0x00, 0x00],
      .config ⟨.auto, false, false, true, 8, 1, 0x07, 0x00, 0x00⟩),
    ([0x01, 0x04, 0x00, 0x00, 0x00, 0x10, 0x00, 0x02, 0x10, 0x21, 0xFF, 0xFF, 0x00, 0x00],
      .config ⟨.auto, false, false, true, 16, 2, 0x1021, 0xFFFF, 0x0000⟩),
    ([0x01, 0x1C, 0x00, 0x00, 0x00, 0x20, 0x00, 0x04, 0x04, 0xC1, 0x1D, 0xB7, 0xFF, 0xFF, 0xFF, 0xFF,
        0xFF, 0xFF, 0xFF, 0xFF],
      .config ⟨.auto, true, true, true, 32, 4, 0x04C11DB7, 0xFFFFFFFF, 0xFFFFFFFF⟩),
    ([0x01, 0x18, 0x00, 0x00, 0x00, 0x05, 0x00, 0x01, 0x05, 0x1F, 0x1F],
      .config ⟨.auto, true, true, false, 5, 1, 0x05, 0x1F, 0x1F⟩),
    ([0x01, 0x5C, 0x00, 0x00, 0x00, 0x05, 0x00, 0x01, 0x05, 0x1F, 0x1F],
      .config ⟨.c16, true, true, true, 5, 1, 0x05, 0x1F, 0x1F⟩),
    ([0x02, 0x31], .upd 0x31),
    ([0x03, 0x01, 0x00, 0x00, 0x00, 0x00, 0x00, 0x00, 0x10, 0x00, 0x00, 0x00, 0x00, 0x09,
        0x00, 0x00, 0x00, 0x00, 0x00, 0x00, 0x00, 0x09],
      .updbuf ⟨true, 0x1000, 9, 0, 9⟩),
    ([0x03, 0x00, 0x00, 0x00, 0x00, 0x00, 0x00, 0x00, 0x00, 0x00, 0x00, 0x00, 0x00, 0x00,
        0x00, 0x00, 0x00, 0x00, 0x00, 0x00, 0x00, 0x00],
      .updbuf ⟨false, 0, 0, 0, 0⟩),
    ([0x04], .fin),
    ([0x05], .rst)] : List (List Byte × Instr)), decode p.1 = .ok p.2 ∧ encode p.2 = p.1

/-- 30 R49, 60 R136: a frame is refused by the decoder exactly when the rule calls it illegal; an illegal frame is
answered IllegalCommand in every phase and changes no state; every other frame is one of the five commands and gets
another response, in every phase. -/
def Obligations.IllegalFramesAreAnsweredIllegalCommand : Prop :=
  (∀ f, IllegalFrame f ↔ ∃ err, decode f = .error err) ∧
  (∀ f, ¬ IllegalFrame f ↔ ∃ i, decode f = .ok i) ∧
  (∀ (s : State) f rest, s.pending = .frame f :: rest → IllegalFrame f →
    step s = .next { s with pending := rest, responses := s.responses ++ [.error .illegalCommand] }) ∧
  (∀ (s : State) f rest, s.pending = .frame f :: rest → ¬ IllegalFrame f →
    ∃ t r, step s = .next t ∧ t.responses = s.responses ++ [r] ∧ r ≠ .error .illegalCommand)

/-! ## The step -/

/-- A step runs the decoded command (00 R8, 30 R50, 70 R153): when the next frame decodes to a command, the step is
that command's execution with the frame taken from the pending events, and nothing else. -/
def Obligations.StepRunsTheDecodedCommand : Prop :=
  ∀ (s : State) f rest i, s.pending = .frame f :: rest → decode f = .ok i →
    i.wellFormed = true ∧ step s = exec i { s with pending := rest }

/-- 60 R144: with no frame issued the block idles and keeps all state. -/
def Obligations.IdleBlockKeepsAllState : Prop :=
  ∀ s : State, s.pending = [] → step s = .next s

/-- 70 R150, R151: reset leaves phase Unconfigured with every register absent. The reset of a running block does the
same and sends no response; that the host's memory and what it has still pending survive is the model's choice
(notes/assumptions/1.md). -/
def Obligations.HardwareResetLeavesUnconfigured : Prop :=
  (State.reset.phase = .unconfigured ∧ State.reset.engine = none) ∧
  (∀ (s : State) rest, s.pending = .hardwareReset :: rest →
    ∃ t, step s = .next t ∧ t.phase = .unconfigured ∧ t.engine = none ∧
      t.mem = s.mem ∧ t.pending = rest ∧ t.responses = s.responses ∧ t.reads = s.reads)

/-- 70 R160: the host writes its memory between commands: the written byte holds the value, every other byte, the block
and the responses are as before. The canonical form of memory is the model's own (notes/assumptions/4.md). -/
def Obligations.HostWriteChangesOneByte : Prop :=
  ∀ (s : State) a v rest, s.mem.wf = true → s.pending = .hostWrite a v :: rest →
    ∃ t, step s = .next t ∧ t.mem.wf = true ∧ t.mem.read a.toNat = v ∧
      (∀ x, x ≠ a.toNat → t.mem.read x = s.mem.read x) ∧
      t.engine = s.engine ∧ t.pending = rest ∧ t.responses = s.responses ∧ t.reads = s.reads

/-- 30 R40, 60 R130: every step answers a next state; serving a frame sends exactly one response, anything else sends
none; responses already sent stay. -/
def Obligations.EveryFrameGetsExactlyOneResponse : Prop :=
  ∀ s : State, ∃ t, step s = .next t ∧ t.pending = s.pending.tail ∧
    ((∃ f rest, s.pending = .frame f :: rest) → ∃ r, t.responses = s.responses ++ [r]) ∧
    ((∀ f rest, s.pending ≠ .frame f :: rest) → t.responses = s.responses)

/-! ## CONFIG (41_configure_and_table) -/

/-- 41 R77, R79: the resolved core and its container: an explicit core is kept; AUTO takes the smallest container that
holds the width; the MULTI container is the least multiple of 8 that covers the width. -/
def Obligations.AutoPicksTheSmallestContainer : Prop :=
  ∀ w, 1 ≤ w →
    (resolve .c8 w = .c8 ∧ resolve .c16 w = .c16 ∧ resolve .c64 w = .c64 ∧ resolve .multi w = .multi) ∧
    (w ≤ 8 → resolve .auto w = .c8) ∧ (9 ≤ w → w ≤ 16 → resolve .auto w = .c16) ∧
    (17 ≤ w → w ≤ 64 → resolve .auto w = .c64) ∧ (65 ≤ w → resolve .auto w = .multi) ∧
    (cbitsOf .c8 w = 8 ∧ cbitsOf .c16 w = 16 ∧ cbitsOf .c64 w = 64) ∧
    (8 ∣ cbitsOf .multi w ∧ w ≤ cbitsOf .multi w ∧ cbitsOf .multi w - w ≤ 7) ∧
    (∀ c, w ≤ capacity c → w ≤ cbitsOf c w ∧ 8 ≤ cbitsOf c w)

/-- 41 R75 steps 4 to 9, R80, R81, R86, R87: an admissible CONFIG completes in every phase: every parameter register,
the table when it is asked for, the register and the phase are those of the rule, whatever engine instance there was;
the response is OK; memory, the pending events and the reads are unchanged. -/
def Obligations.ConfigCreatesTheEngine : Prop :=
  ∀ (op : ConfigOperands) (s : State), Admissible op →
    ∃ e, exec (.config op) s = .next { s with engine := some e, responses := s.responses ++ [.ok] } ∧
      e.core = resolve op.core e.width ∧ (e.width : Int) = op.width.toInt ∧
      e.cbits = cbitsOf e.core e.width ∧ e.moves = e.cbits - e.width ∧
      e.refin = op.refin ∧ e.refout = op.refout ∧ e.withtable = op.withtable ∧
      e.poly = align e.cbits e.width op.refin op.poly ∧
      e.init = align e.cbits e.width op.refin op.init ∧
      e.xorout = op.xorout % 2 ^ e.width ∧
      (op.withtable = true → ∃ t, e.table = some t ∧ ∀ b, t.lookup b = entry e.cbits e.poly op.refin b) ∧
      e.reg = e.init ∧ e.phase = .ready

/-- 41 R76, R78, 60 R132: a width that is not positive, for every `core`, or exceeds the capacity of the resolved core
ends with InvalidArgument(width) and nothing else changes; width 1 is accepted; the capacities; under AUTO a positive
width fails only above WMAX. -/
def Obligations.ConfigRefusesUnfitWidths : Prop :=
  (∀ (op : ConfigOperands) (s : State), op.width.toInt ≤ 0 →
    exec (.config op) s = .next { s with responses := s.responses ++ [.error (.invalidArgument .width)] }) ∧
  (∀ (op : ConfigOperands) (s : State), 0 < op.width.toInt →
    capacity (resolve op.core op.width.toInt.toNat) < op.width.toInt →
    exec (.config op) s = .next { s with responses := s.responses ++ [.error (.invalidArgument .width)] }) ∧
  (∀ op : ConfigOperands, op.width.toInt = 1 → Admissible op) ∧
  (capacity .c8 = 8 ∧ capacity .c16 = 16 ∧ capacity .c64 = 64 ∧
    capacity .multi = Config.wmax ∧ 82 ≤ Config.wmax ∧ Config.wmax ≤ 524280) ∧
  (∀ op : ConfigOperands, op.core = .auto → 0 < op.width.toInt → ¬ Admissible op →
    (Config.wmax : Int) < op.width.toInt)

/-- 40 R70: two CONFIG commands that differ only in bits of `poly`, `init`, `xorout` at positions ≥ w (and in the byte
count `nb` that carries them) do the same to every state. -/
def Obligations.BitsAboveTheWidthHaveNoEffect : Prop :=
  ∀ (op op' : ConfigOperands) (s : State),
    op'.core = op.core → op'.refin = op.refin → op'.refout = op.refout → op'.withtable = op.withtable →
    op'.width = op.width →
    (∀ i : Nat, (i : Int) < op.width.toInt → op'.poly.testBit i = op.poly.testBit i) →
    (∀ i : Nat, (i : Int) < op.width.toInt → op'.init.testBit i = op.init.testBit i) →
    (∀ i : Nat, (i : Int) < op.width.toInt → op'.xorout.testBit i = op.xorout.testBit i) →
    exec (.config op') s = exec (.config op) s

/-- 41 R82, R83, R84: every generated table: entry 0 is 0; entries are linear over XOR; forward `TABLE[1]` and
reflected `TABLE[128]` are `POLY`; every entry meets the register invariant; an entry is one bit-by-bit byte update of a
zero register. -/
def Obligations.GeneratedTablesAreLinear : Prop :=
  ∀ C w poly refin, 8 ≤ C → 1 ≤ w → w ≤ C → Placed refin C w poly →
    let t := Table.generate C poly refin
    t.lookup 0 = 0 ∧
    (∀ a b, t.lookup (a ^^^ b) = t.lookup a ^^^ t.lookup b) ∧
    (refin = false → t.lookup 1 = poly) ∧ (refin = true → t.lookup 128 = poly) ∧
    (∀ b, Placed refin C w (t.lookup b)) ∧
    (∀ b, refin = false → t.lookup b = bitwiseFwd C poly 0 b) ∧
    (∀ b, refin = true → t.lookup b = bitwiseRef poly 0 b)

/-- 41 R85, 90 C6: a reflected table is the same in every container; a forward table of a wider container is the
narrower one shifted left. -/
def Obligations.TablesAcrossContainers : Prop :=
  ∀ C C' poly b, 8 ≤ C → C ≤ C' → poly < 2 ^ C →
    (Table.generate C poly true).lookup b = (Table.generate C' poly true).lookup b ∧
    (Table.generate C' (poly <<< (C' - C)) false).lookup b = (Table.generate C poly false).lookup b <<< (C' - C)

/-! ## UPD (42_update) -/

/-- 42 R90 to R94, 60 R135: UPD consumes one byte: the new `REG` by the form that `WITHTABLE` and `REFIN` fix, spelled
out, the phase Accumulating, the response OK, nothing else changed; in phase Unconfigured it is NotConfigured. -/
def Obligations.UpdConsumesOneByte : Prop :=
  ∀ (s : State) (b : Byte),
    (s.engine = none →
      exec (.upd b) s = .next { s with responses := s.responses ++ [.error .notConfigured] }) ∧
    (∀ e, s.engine = some e →
      ∃ r, exec (.upd b) s =
          .next { s with engine := some { e with reg := r, phase := .accumulating }
                         responses := s.responses ++ [.ok] } ∧
        (e.table = none → e.refin = false →
          r = Nat.iterate (fun v => if v.testBit (e.cbits - 1) then (v <<< 1) % 2 ^ e.cbits ^^^ e.poly
                                    else (v <<< 1) % 2 ^ e.cbits) 8 (e.reg ^^^ b.toNat <<< (e.cbits - 8))) ∧
        (e.table = none → e.refin = true →
          r = Nat.iterate (fun v => if v.testBit 0 then v >>> 1 ^^^ e.poly else v >>> 1) 8 (e.reg ^^^ b.toNat)) ∧
        (∀ t, e.table = some t → e.refin = false → e.reg < 2 ^ e.cbits → 8 ≤ e.cbits →
          ∃ idx : Byte, idx.toNat = (e.reg >>> (e.cbits - 8)) ^^^ b.toNat ∧
            r = (e.reg <<< 8) % 2 ^ e.cbits ^^^ t.lookup idx) ∧
        (∀ t, e.table = some t → e.refin = true →
          ∃ idx : Byte, idx.toNat = (e.reg &&& 0xFF) ^^^ b.toNat ∧ r = e.reg >>> 8 ^^^ t.lookup idx))

/-- 42 R95: the two paths agree on every register that meets the invariant and every byte; so `WITHTABLE` has no effect
on the register of a good engine instance after a byte, on the register after any bytes, nor on any FIN value. -/
def Obligations.TablePathEqualsBitByBitPath : Prop :=
  (∀ C w poly r b, 8 ≤ C → 1 ≤ w → w ≤ C → Placed false C w poly → Placed false C w r →
    tableFwd C (Table.generate C poly false) r b = bitwiseFwd C poly r b) ∧
  (∀ C w poly r b, 8 ≤ C → 1 ≤ w → w ≤ C → Placed true C w poly → Placed true C w r →
    tableRef (Table.generate C poly true) r b = bitwiseRef poly r b) ∧
  (∀ (e : Engine) b, e.Good → (e.consume b).reg = (({ e with table := none } : Engine).consume b).reg) ∧
  (∀ (op : ConfigOperands) bs, Admissible op →
    ((Engine.create (configCore op) { op with withtable := true }).feed bs).reg =
      ((Engine.create (configCore op) { op with withtable := false }).feed bs).reg ∧
    crcValue { op with withtable := true } bs = crcValue { op with withtable := false } bs)

/-- 42 R102: the byte update keeps the register invariant, in both orientations, bit by bit and on every good engine
instance. -/
def Obligations.ByteUpdateKeepsTheRegisterInvariant : Prop :=
  (∀ C w poly r b, 8 ≤ C → 1 ≤ w → w ≤ C → Placed false C w poly → Placed false C w r →
    Placed false C w (bitwiseFwd C poly r b)) ∧
  (∀ C w poly r b, 8 ≤ C → 1 ≤ w → w ≤ C → Placed true C w poly → Placed true C w r →
    Placed true C w (bitwiseRef poly r b)) ∧
  (∀ (e : Engine) b, e.Good → Placed e.refin e.cbits e.width (e.updateByte e.reg b))

/-! ## UPDBUF (42_update, 20_memory) -/

/-- 42 R96, 20 R34: an UPDBUF in range, in a configured block, completes: it consumes the bytes of its range in
ascending order, reads exactly these addresses, once each, all inside the address space, answers OK and changes nothing
else. -/
def Obligations.UpdbufConsumesItsRange : Prop :=
  ∀ (s : State) e buf, s.engine = some e → InRange buf →
    let a := buf.base.toNat + buf.offset.toInt.toNat
    let n := buf.length.toInt.toNat
    exec (.updbuf buf) s =
      .next { s with engine := some (((List.range' a n).map s.mem.read).foldl Engine.consume e)
                     reads := s.reads ++ List.range' a n
                     responses := s.responses ++ [.ok] } ∧
    ∀ x ∈ List.range' a n, buf.base.toNat ≤ x ∧ x < buf.base.toNat + buf.size.toNat ∧ x < 2 ^ 64

/-- 42 R97, 60 R133, R134: the checks in their order, in a configured block: absent buffer; descriptor past the top of
the address space; range out of bounds. Each answers its InvalidArgument and changes nothing, reads included. -/
def Obligations.UpdbufChecksItsArgumentsInOrder : Prop :=
  ∀ (s : State) e buf, s.engine = some e →
    (buf.present = false →
      exec (.updbuf buf) s = .next { s with responses := s.responses ++ [.error (.invalidArgument .buffer)] }) ∧
    (buf.present = true → 2 ^ 64 < buf.base.toNat + buf.size.toNat →
      exec (.updbuf buf) s = .next { s with responses := s.responses ++ [.error (.invalidArgument .buffer)] }) ∧
    (buf.present = true → buf.base.toNat + buf.size.toNat ≤ 2 ^ 64 →
      (buf.offset.toInt < 0 ∨ buf.length.toInt < 0 ∨
        (buf.size.toNat : Int) < buf.offset.toInt + buf.length.toInt) →
      exec (.updbuf buf) s = .next { s with responses := s.responses ++ [.error (.invalidArgument .range)] })

/-- 42 R99: a valid UPDBUF of length 0 leaves register and phase unchanged and reads no memory; with the buffer absent
it is still InvalidArgument(buffer); of a present buffer of size 0 only offset 0 and length 0 are in range. -/
def Obligations.UpdbufOfLengthZeroConsumesNothing : Prop :=
  ∀ (s : State) e buf, s.engine = some e → buf.length = 0 →
    (buf.present = true → buf.base.toNat + buf.size.toNat ≤ 2 ^ 64 → 0 ≤ buf.offset.toInt →
      buf.offset.toInt ≤ buf.size.toNat →
      exec (.updbuf buf) s = .next { s with responses := s.responses ++ [.ok] }) ∧
    (buf.present = false →
      exec (.updbuf buf) s = .next { s with responses := s.responses ++ [.error (.invalidArgument .buffer)] }) ∧
    (∀ buf', buf'.present = true → buf'.size = 0 → (InRange buf' ↔ buf'.offset = 0 ∧ buf'.length = 0))

/-- 42 R98: a successful UPDBUF leaves exactly the engine instance that UPD commands over the same bytes leave, in that
order; and a run over any mixture of UPD frames and UPDBUF frames in range leaves the engine instance that the bytes they
consume, joined, give: it does not depend on how the sequence was cut. -/
def Obligations.BulkUpdateEqualsSingleUpdates : Prop :=
  (∀ (s : State) e buf, s.engine = some e → InRange buf →
    ∃ t u, exec (.updbuf buf) s = .next t ∧
      Host.Core.run Sys2Proof.core buf.length.toInt.toNat
        { s with pending := updFrames (s.mem.bytes (buf.base.toNat + buf.offset.toInt.toNat) buf.length.toInt.toNat) }
        = .next u ∧
      u.engine = t.engine) ∧
  (∀ (e : Engine) xs ys, e.feed (xs ++ ys) = (e.feed xs).feed ys) ∧
  (∀ (s : State) e (cmds : List Instr) rest, s.engine = some e → (∀ i ∈ cmds, Consumes i) →
    s.pending = (cmds.map fun i => .frame (encode i)) ++ rest →
    Host.Core.run Sys2Proof.core cmds.length s =
      .next { s with engine := some (e.feed (cmds.flatMap (consumedBytes s.mem))), pending := rest
                     responses := s.responses ++ List.replicate cmds.length .ok
                     reads := s.reads ++ cmds.flatMap consumedAddrs }) ∧
  (∀ (s s' t t' : State) (cmds cmds' : List Instr), s.engine ≠ none → s'.engine = s.engine →
    (∀ i ∈ cmds, Consumes i) → (∀ i ∈ cmds', Consumes i) →
    s.pending = (cmds.map fun i => .frame (encode i)) → s'.pending = (cmds'.map fun i => .frame (encode i)) →
    cmds.flatMap (consumedBytes s.mem) = cmds'.flatMap (consumedBytes s'.mem) →
    Host.Core.run Sys2Proof.core cmds.length s = .next t →
    Host.Core.run Sys2Proof.core cmds'.length s' = .next t' → t.engine = t'.engine)

/-! ## FIN and RST (43_finalize_reset) -/

/-- 43 R105 to R108, 60 R135: FIN answers the transform of the register, spelled out, and its byte count, and loads
`INIT`; nothing else changes; in phase Unconfigured it is NotConfigured. -/
def Obligations.FinAnswersTheTransformAndResets : Prop :=
  ∀ s : State,
    (s.engine = none → exec .fin s = .next { s with responses := s.responses ++ [.error .notConfigured] }) ∧
    (∀ e, s.engine = some e →
      let v1 := if e.refin = e.refout then e.reg else rev e.cbits e.reg
      let v2 := if 0 < e.moves ∧ e.refout = false then v1 >>> e.moves else v1
      exec .fin s =
        .next { s with engine := some { e with reg := e.init, phase := .ready }
                       responses := s.responses ++ [.okValue (v2 ^^^ e.xorout) ((e.width + 7) / 8)] })

/-- 43 R110, R107: the FIN value of a good engine instance is below 2^w and fits its `nbytes` bytes, the least whole
number of bytes that hold w bits, which fits the 16-bit field of the response (30 R52). -/
def Obligations.FinValueFitsTheWidth : Prop :=
  ∀ (s : State) (e : Engine), s.engine = some e → e.Good →
    ∃ v nb t, exec .fin s = .next t ∧ t.responses = s.responses ++ [.okValue v nb] ∧
      v < 2 ^ e.width ∧ v < 256 ^ nb ∧ e.width ≤ 8 * nb ∧ 8 * nb < e.width + 8 ∧ nb ≤ 65535

/-- 43 R109: FIN with no bytes consumed returns the transform of `INIT`, which in terms of the operands depends on
`refout` only; and a second FIN right after a FIN returns the transform of `INIT`. -/
def Obligations.FinWithoutBytesIsTheTransformOfInit : Prop :=
  (∀ op : ConfigOperands, Admissible op → op.refout = false →
    crcValue op [] = trunc (widthNat op) op.init ^^^ trunc (widthNat op) op.xorout) ∧
  (∀ op : ConfigOperands, Admissible op → op.refout = true →
    crcValue op [] = rev (widthNat op) (trunc (widthNat op) op.init) ^^^ trunc (widthNat op) op.xorout) ∧
  (∀ (s : State) e, s.engine = some e →
    ∃ t u, exec .fin s = .next t ∧ exec .fin t = .next u ∧ u.engine = t.engine ∧
      u.responses = t.responses ++ [.okValue (e.transform e.init) e.nbytes])

/-- 30 R55, 43 R105: the pseudo-instruction CRC, issued to a block in any phase, answers OK to every frame but the last
and the CRC value to FIN, leaves the block ready for the next computation and touches no memory. -/
def Obligations.CrcProgramAnswersTheCrcValue : Prop :=
  ∀ (s : State) op bs, Admissible op → (Instr.config op).wellFormed = true → s.pending = [] →
    Host.Core.run Sys2Proof.core (bs.length + 2) (s.issueAll (crcProgram op bs)) =
      .next { s with engine := some (Engine.create (configCore op) op)
                     responses := s.responses ++ List.replicate (bs.length + 1) .ok ++
                       [.okValue (crcValue op bs) ((widthNat op + 7) / 8)] }

/-- 43 R113, first law: `refin` means that input bytes are processed in bit-reversed order. -/
def Obligations.RefinMeansBitReversedInputBytes : Prop :=
  ∀ (op : ConfigOperands) bs, Admissible op →
    crcValue { op with refin := true } bs = crcValue { op with refin := false } (bs.map revByte)

/-- 43 R113, second law: `refout` means that the final register is bit-reversed before output. -/
def Obligations.RefoutMeansBitReversedOutput : Prop :=
  ∀ (op : ConfigOperands) bs, Admissible op →
    let x := trunc (widthNat op) op.xorout
    crcValue { op with refout := true } bs =
      rev (widthNat op) (crcValue { op with refout := false } bs ^^^ x) ^^^ x

/-- 42 R103: the FIN value does not depend on the core nor on the table. -/
def Obligations.CrcValueIsIndependentOfTheCore : Prop :=
  ∀ (op : ConfigOperands) core withtable bs, Admissible op →
    Admissible { op with core := core, withtable := withtable } →
    crcValue { op with core := core, withtable := withtable } bs = crcValue op bs

/-- 43 R111, 60 R135: RST loads `INIT` and phase Ready, answers OK and changes nothing else; in phase Unconfigured it is
NotConfigured. -/
def Obligations.RstLoadsInit : Prop :=
  ∀ s : State,
    (s.engine = none → exec .rst s = .next { s with responses := s.responses ++ [.error .notConfigured] }) ∧
    (∀ e, s.engine = some e →
      exec .rst s = .next { s with engine := some { e with reg := e.init, phase := .ready }
                                   responses := s.responses ++ [.ok] })

/-- 43 R112: RST RST is RST; RST in phase Ready of a good engine instance is a no-operation but for its response; after
any frames other than a CONFIG, RST restores the engine instance to what the CONFIG that created it left. -/
def Obligations.RstEqualsAFreshEngine : Prop :=
  (∀ (s : State) e, s.engine = some e →
    ∃ t u, exec .rst s = .next t ∧ exec .rst t = .next u ∧ u = { t with responses := t.responses ++ [.ok] }) ∧
  (∀ (s : State) e, s.engine = some e → e.Good → e.phase = .ready →
    exec .rst s = .next { s with responses := s.responses ++ [.ok] }) ∧
  (∀ (s : State) op (fs : List (List Byte)), Admissible op →
    (∀ f ∈ fs, ∀ op', decode f ≠ .ok (.config op')) →
    ∃ t u v, exec (.config op) s = .next t ∧
      Host.Core.run Sys2Proof.core fs.length { t with pending := fs.map HostEvent.frame } = .next u ∧
      exec .rst u = .next v ∧ v.engine = t.engine)

/-! ## Phases, errors and responses (10_state, 60_exceptions) -/

/-- 10 R11: the transitions of the phase for commands that complete without error, and that an error leaves it. -/
def Obligations.PhaseTransitions : Prop :=
  ∀ (s t : State) i r, exec i s = .next t → t.responses = s.responses ++ [r] →
    ((∃ err, r = .error err) → t.phase = s.phase) ∧
    ((∀ err, r ≠ .error err) →
      (∀ op, i = .config op → t.phase = .ready) ∧
      (∀ b, i = .upd b → s.phase ≠ .unconfigured ∧ t.phase = .accumulating) ∧
      (∀ buf, i = .updbuf buf → s.phase ≠ .unconfigured ∧
        (1 ≤ buf.length.toInt → t.phase = .accumulating) ∧ (buf.length.toInt = 0 → t.phase = s.phase)) ∧
      (i = .fin → s.phase ≠ .unconfigured ∧ t.phase = .ready) ∧
      (i = .rst → s.phase ≠ .unconfigured ∧ t.phase = .ready))

/-- 60 R135: in phase Unconfigured every command but CONFIG answers NotConfigured, before any operand is examined and
any memory read; and nothing but hardware reset returns the block to Unconfigured. -/
def Obligations.OnlyHardwareResetUnconfigures : Prop :=
  (∀ (s : State) i, s.engine = none → (∀ op, i ≠ .config op) →
    exec i s = .next { s with responses := s.responses ++ [.error .notConfigured] }) ∧
  (∀ s t : State, s.phase ≠ .unconfigured → step s = .next t → t.phase = .unconfigured →
    ∃ rest, s.pending = .hardwareReset :: rest)

/-- 60 R138, 10 R29: a command that ends in an error response changes nothing: no register, no phase, no table, and no
memory was read; only the response is sent. -/
def Obligations.ErrorResponsesChangeNothing : Prop :=
  (∀ (s t : State) i err, exec i s = .next t → t.responses = s.responses ++ [.error err] →
    t = { s with responses := s.responses ++ [.error err] }) ∧
  (∀ (s t : State) f rest err, s.pending = .frame f :: rest → step s = .next t →
    t.responses = s.responses ++ [.error err] →
    t = { s with pending := rest, responses := s.responses ++ [.error err] })

/-- 60 R131, R130: every command answers exactly one response, one of those the table gives it. -/
def Obligations.CommandsGiveOnlyTheirResponses : Prop :=
  ∀ (i : Instr) (s : State), ∃ t r, exec i s = .next t ∧ t.responses = s.responses ++ [r] ∧ CanAnswer i r

/-- 60 R137: the first error condition that applies, in the order of the rule, gives the response of the step. -/
def Obligations.TheFirstApplicableErrorIsAnswered : Prop :=
  ∀ (s : State) f rest, s.pending = .frame f :: rest →
    let answers := fun err => step s = .next { s with pending := rest, responses := s.responses ++ [.error err] }
    (IllegalFrame f → answers .illegalCommand) ∧
    (∀ i, decode f = .ok i → (∀ op, i ≠ .config op) → s.engine = none → answers .notConfigured) ∧
    (∀ op, decode f = .ok (.config op) → op.width.toInt ≤ 0 → answers (.invalidArgument .width)) ∧
    (∀ op, decode f = .ok (.config op) → 0 < op.width.toInt → capacity (configCore op) < widthNat op →
      answers (.invalidArgument .width)) ∧
    (∀ e buf, decode f = .ok (.updbuf buf) → s.engine = some e → buf.present = false →
      answers (.invalidArgument .buffer)) ∧
    (∀ e buf, decode f = .ok (.updbuf buf) → s.engine = some e → buf.present = true →
      2 ^ 64 < buf.base.toNat + buf.size.toNat → answers (.invalidArgument .buffer)) ∧
    (∀ e buf, decode f = .ok (.updbuf buf) → s.engine = some e → buf.present = true →
      buf.base.toNat + buf.size.toNat ≤ 2 ^ 64 →
      (buf.offset.toInt < 0 ∨ buf.length.toInt < 0 ∨
        (buf.size.toNat : Int) < buf.offset.toInt + buf.length.toInt) → answers (.invalidArgument .range))

/-- 30 R52, R53: the response frames: a single 00; for FIN 00, the byte count as two bytes and the value, both
big-endian; 01 and the parameter code; 02; 03. -/
def Obligations.ResponseFramesCarryTheResponse : Prop :=
  Response.ok.wire = [0x00] ∧
  (∀ v nb, v < 256 ^ nb → nb < 65536 →
    ∃ count value : List Byte, (Response.okValue v nb).wire = 0x00 :: (count ++ value) ∧
      count.length = 2 ∧ beNat count = nb ∧ value.length = nb ∧ beNat value = v) ∧
  (Response.error (.invalidArgument .width)).wire = [0x01, 0x01] ∧
  (Response.error (.invalidArgument .buffer)).wire = [0x01, 0x02] ∧
  (Response.error (.invalidArgument .range)).wire = [0x01, 0x03] ∧
  (Response.error .notConfigured).wire = [0x02] ∧
  (Response.error .illegalCommand).wire = [0x03]

/-! ## The whole machine -/

/-- 10 R23: the ten parameter registers and the table are written by a successful CONFIG only: every other command, and
a CONFIG that is refused, leaves an engine instance that differs at most in `REG` and `PHASE`, and creates none. -/
def Obligations.OnlyConfigWritesTheParameterRegisters : Prop :=
  ∀ (s t : State) i, exec i s = .next t → (∀ op, i = .config op → ¬ Admissible op) →
    (∀ e, s.engine = some e → ∃ r p, t.engine = some { e with reg := r, phase := p }) ∧
    (s.engine = none → t.engine = none)

/-- 20 R30, R34, 10 R29: the frame of every command over memory: no byte of memory changes, nothing pending changes, and
the addresses read are those of a successful UPDBUF's range, none for any other command or for an error. -/
def Obligations.CommandsOnlyReadMemory : Prop :=
  ∀ (s t : State) i, exec i s = .next t →
    (t.mem = s.mem ∧ ∀ a, t.mem.read a = s.mem.read a) ∧ t.pending = s.pending ∧
    (∀ buf, i = .updbuf buf → s.engine ≠ none → InRange buf →
      t.reads = s.reads ++
        List.range' (buf.base.toNat + buf.offset.toInt.toNat) buf.length.toInt.toNat) ∧
    (∀ buf, i = .updbuf buf → (s.engine = none ∨ ¬ InRange buf) → t.reads = s.reads) ∧
    ((∀ buf, i ≠ .updbuf buf) → t.reads = s.reads)

/-- 43 R114: the response and the new engine instance are a function of the engine instance before, the command and the
bytes of memory it reads, and of nothing else. -/
def Obligations.ResponsesDependOnStateFrameAndBytesRead : Prop :=
  ∀ (s s' : State) i, s'.engine = s.engine →
    (∀ buf, i = .updbuf buf → ∀ k, k < buf.length.toInt.toNat →
      s'.mem.read (buf.base.toNat + buf.offset.toInt.toNat + k) =
        s.mem.read (buf.base.toNat + buf.offset.toInt.toNat + k)) →
    ∃ e r l,
      exec i s = .next { s with engine := e, responses := s.responses ++ [r], reads := s.reads ++ l } ∧
      exec i s' = .next { s' with engine := e, responses := s'.responses ++ [r], reads := s'.reads ++ l }

/-- The invariant of the machine is kept by every step, from every state that meets it: memory in canonical form; in a
configured block 1 ≤ w ≤ capacity, C and m as the rules give them, `POLY`, `INIT`, `REG` in place, `XOROUT` below 2^w,
the table the generated one, and `REG` = `INIT` in phase Ready (10 R11 to R18, R26, 41 R85). The canonical form of memory is the model's choice
(notes/assumptions/4.md). -/
def Obligations.EveryStepKeepsTheInvariant : Prop :=
  ∀ s t : State, s.Inv → step s = .next t → t.Inv

/-- The invariant holds right after reset (70 R150 for the block: no engine instance). That reset memory lists nothing
and is in the canonical form is the model's choice (notes/assumptions/4.md, DESIGN CHOICE). -/
def Obligations.ResetMeetsTheInvariant : Prop := State.reset.Inv

/-! ## The multi-word core on shards (44_multiword) -/

/-- 44 R116, R117, R120, R125: the shifts across shards are the shifts of the container, and keep the array's length. -/
def Obligations.ShardShiftsAreContainerShifts : Prop :=
  ∀ sh : Shards,
    Shards.val (Shards.shl1 sh) = shl1 (8 * sh.length) (Shards.val sh) ∧ (Shards.shl1 sh).length = sh.length ∧
    Shards.val (Shards.shr1 sh) = shr1 (Shards.val sh) ∧ (Shards.shr1 sh).length = sh.length ∧
    (∀ k, k ≤ 7 → Shards.val (Shards.shl k sh) = (Shards.val sh <<< k) % 2 ^ (8 * sh.length) ∧
      Shards.val (Shards.shr k sh) = Shards.val sh >>> k ∧
      (Shards.shl k sh).length = sh.length ∧ (Shards.shr k sh).length = sh.length)

/-- 44 R118, R119, R120, R125: XOR, reversal, the top and bottom bit, and truncation across shards are those of the
container. -/
def Obligations.ShardXorAndReversalAreContainerOperations : Prop :=
  (∀ a b : Shards, a.length = b.length →
    Shards.val (Shards.xor a b) = Shards.val a ^^^ Shards.val b ∧ (Shards.xor a b).length = a.length) ∧
  (∀ sh : Shards, Shards.val (Shards.rev sh) = rev (8 * sh.length) (Shards.val sh) ∧
    (Shards.rev sh).length = sh.length) ∧
  (∀ sh : Shards, sh ≠ [] → Shards.topBit sh = topBit (8 * sh.length) (Shards.val sh) ∧
    Shards.botBit sh = botBit (Shards.val sh)) ∧
  (∀ (sh : Shards) m, sh ≠ [] → m ≤ 7 → Shards.val (Shards.trunc m sh) = trunc (8 * sh.length - m) (Shards.val sh))

/-- 44 R120, R123, R125: CONFIG on shards creates arrays that represent exactly the engine instance CONFIG creates on
core MULTI, and are of the one length that covers the width. -/
def Obligations.ShardConfigRepresentsTheEngine : Prop :=
  ∀ op : ConfigOperands, op.wellFormed = true → 0 < op.width.toInt →
    (ShardEngine.create op).toEngine = Engine.create .multi op ∧ (ShardEngine.create op).Shaped

/-- 44 R121, R122, R125: a byte update on shards, bit by bit or by table, in either orientation, represents the byte
update of the container and keeps the shape. -/
def Obligations.ShardUpdateRepresentsTheUpdate : Prop :=
  ∀ (e : ShardEngine) b, e.Shaped →
    (e.consume b).toEngine = e.toEngine.consume b ∧ (e.consume b).Shaped

/-- 44 R124, R125: FIN on shards: the array is, most significant first, the value field of the FIN response; RST and FIN
load the `INIT` array. -/
def Obligations.ShardFinRepresentsTheFin : Prop :=
  ∀ e : ShardEngine, e.Shaped →
    Shards.val e.finShards = e.toEngine.finValue ∧ e.finShards.length = e.toEngine.nbytes ∧
    (Response.okValue e.toEngine.finValue e.toEngine.nbytes).body = beBytes 2 e.toEngine.nbytes ++ e.finShards ∧
    e.rewind.toEngine = e.toEngine.rewind ∧ e.rewind.Shaped

/-- 44 R125: with w ≤ 8 the MULTI core has one shard and is state for state core C8. -/
def Obligations.NarrowMultiIsStateForStateC8 : Prop :=
  ∀ (op : ConfigOperands) bs, 0 < op.width.toInt → op.width.toInt ≤ 8 →
    ((Engine.create .multi op).feed bs) = { (Engine.create .c8 op).feed bs with core := .multi }

/-- 44 R125: every command of the MULTI core computes on `val` exactly what `exec` computes on the C-bit value: from
arrays that represent the engine instance, `multiExec` gives the engine instance, the response and the addresses read of
`exec`, and its arrays represent again. A refused CONFIG may name any core; one that is not refused resolves to MULTI. -/
def Obligations.MultiwordCommandsComputeOnVal : Prop :=
  ∀ (i : Instr) (s : State) (se : Option ShardEngine), Represents se s.engine → i.wellFormed = true →
    (∀ op, i = .config op → Admissible op → configCore op = .multi) →
    ∃ e, Represents (multiExec i se s.mem).engine e ∧
      exec i s = .next { s with engine := e
                                responses := s.responses ++ [(multiExec i se s.mem).response]
                                reads := s.reads ++ (multiExec i se s.mem).reads }

/-- 44 R125, 42 R103: the MULTI core on shards returns, for the same operands and bytes, the FIN value of whichever core
the operands resolve to: of C8, C16 and C64 for the widths they hold. -/
def Obligations.ShardFinValueIsThatOfEveryCore : Prop :=
  ∀ (op : ConfigOperands) bs, op.wellFormed = true → Admissible op →
    Shards.val ((ShardEngine.create op).feed bs).finShards = crcValue op bs
end

