-- ==== Sys2Proof/Laws/Fields.lean ====
section
/-! SUPPORT. The big-endian fields of frames (30_encoding R48), the open parameter WMAX (00_scope R5) and the table
look-up (41 R81). -/

namespace Sys2Proof

@[simp] theorem beBytes_length (k v : Nat) : (beBytes k v).length = k := by
  induction k generalizing v with
  | zero => rfl
  | succ k ih => simp [beBytes, ih]

theorem beNat_append_singleton (f : List Byte) (b : Byte) : beNat (f ++ [b]) = beNat f * 256 + b.toNat := by
  simp [beNat]

/-- A field of `k` bytes holds the value modulo 256^k. -/
theorem beNat_beBytes (k v : Nat) : beNat (beBytes k v) = v % 256 ^ k := by
  induction k generalizing v with
  | zero => simp [beBytes, beNat, Nat.mod_one]
  | succ k ih =>
    rw [beBytes, beNat_append_singleton, ih, pow_succ, mul_comm (256 ^ k) 256, Nat.mod_mul]
    simp
    omega

/-- A field is the bytes of its value. -/
theorem beBytes_beNat (f : List Byte) : beBytes f.length (beNat f) = f := by
  induction f using List.reverseRecOn with
  | nil => rfl
  | append_singleton f b ih =>
    have hb := b.isLt
    rw [beNat_append_singleton, List.length_append, List.length_singleton, beBytes]
    have h1 : (beNat f * 256 + b.toNat) / 256 = beNat f := by omega
    have h2 : BitVec.ofNat 8 (beNat f * 256 + b.toNat) = b := by
      apply BitVec.eq_of_toNat_eq
      rw [BitVec.toNat_ofNat]
      omega
    rw [h1, ih, h2]

theorem beNat_lt (f : List Byte) : beNat f < 256 ^ f.length := by
  have h := beNat_beBytes f.length (beNat f)
  rw [beBytes_beNat] at h
  rw [h]
  exact Nat.mod_lt _ (Nat.pos_of_ne_zero (by simp))

/-- WMAX is at least 82 (00_scope R5). -/
theorem Config.wmax_ge : 82 ≤ Config.wmax := Nat.le_add_right _ _

/-- WMAX is at most 524280 (00_scope R5). -/
theorem Config.wmax_le : Config.wmax ≤ 524280 := by
  have := Nat.mod_lt Config.wmaxChoice (show 0 < 524199 by decide)
  unfold Config.wmax
  omega

namespace Machine

/-- Every entry of the generated table is the one the rule gives (41 R81). -/
theorem Table.lookup_generate (C poly : Nat) (refin : Bool) (b : Byte) :
    (Table.generate C poly refin).lookup b = entry C poly refin b := by
  simp only [Table.lookup, Table.generate, Vector.get_ofFn]
  rw [BitVec.ofNat_toNat, BitVec.setWidth_eq]

end Machine

end Sys2Proof
end

