-- ==== Sys2Proof/Laws/State.lean ====
section
/-! SUPPORT. One lemma per field per update of the state and of the engine instance, so that no proof unfolds a record
update. -/

namespace Sys2Proof.Machine

/-! ## Sending a response -/

@[simp] theorem State.respond_engine (s : State) (r : Response) : (s.respond r).engine = s.engine := rfl

@[simp] theorem State.respond_mem (s : State) (r : Response) : (s.respond r).mem = s.mem := rfl

@[simp] theorem State.respond_pending (s : State) (r : Response) : (s.respond r).pending = s.pending := rfl

@[simp] theorem State.respond_responses (s : State) (r : Response) : (s.respond r).responses = s.responses ++ [r] := rfl

@[simp] theorem State.respond_reads (s : State) (r : Response) : (s.respond r).reads = s.reads := rfl

/-! ## Creating or changing the engine instance -/

@[simp] theorem State.setEngine_engine (s : State) (e : Engine) : (s.setEngine e).engine = some e := rfl

@[simp] theorem State.setEngine_mem (s : State) (e : Engine) : (s.setEngine e).mem = s.mem := rfl

@[simp] theorem State.setEngine_pending (s : State) (e : Engine) : (s.setEngine e).pending = s.pending := rfl

@[simp] theorem State.setEngine_responses (s : State) (e : Engine) : (s.setEngine e).responses = s.responses := rfl

@[simp] theorem State.setEngine_reads (s : State) (e : Engine) : (s.setEngine e).reads = s.reads := rfl

/-! ## A write by the host -/

@[simp] theorem State.hostWrite_engine (s : State) (a : Addr) (v : Byte) : (s.hostWrite a v).engine = s.engine := rfl

@[simp] theorem State.hostWrite_mem (s : State) (a : Addr) (v : Byte) : (s.hostWrite a v).mem = s.mem.write a.toNat v := rfl

@[simp] theorem State.hostWrite_pending (s : State) (a : Addr) (v : Byte) : (s.hostWrite a v).pending = s.pending := rfl

@[simp] theorem State.hostWrite_responses (s : State) (a : Addr) (v : Byte) : (s.hostWrite a v).responses = s.responses := rfl

@[simp] theorem State.hostWrite_reads (s : State) (a : Addr) (v : Byte) : (s.hostWrite a v).reads = s.reads := rfl

/-! ## Hardware reset -/

@[simp] theorem State.hardwareReset_engine (s : State) : (s.hardwareReset).engine = none := rfl

@[simp] theorem State.hardwareReset_mem (s : State) : (s.hardwareReset).mem = s.mem := rfl

@[simp] theorem State.hardwareReset_pending (s : State) : (s.hardwareReset).pending = s.pending := rfl

@[simp] theorem State.hardwareReset_responses (s : State) : (s.hardwareReset).responses = s.responses := rfl

@[simp] theorem State.hardwareReset_reads (s : State) : (s.hardwareReset).reads = s.reads := rfl

/-! ## Issuing a frame first -/

@[simp] theorem State.issue_engine (s : State) (f : List Byte) : (s.issue f).engine = s.engine := rfl

@[simp] theorem State.issue_mem (s : State) (f : List Byte) : (s.issue f).mem = s.mem := rfl

@[simp] theorem State.issue_pending (s : State) (f : List Byte) : (s.issue f).pending = .frame f :: s.pending := rfl

@[simp] theorem State.issue_responses (s : State) (f : List Byte) : (s.issue f).responses = s.responses := rfl

@[simp] theorem State.issue_reads (s : State) (f : List Byte) : (s.issue f).reads = s.reads := rfl

/-! ## Issuing a command sequence last -/

@[simp] theorem State.issueAll_engine (s : State) (p : List Instr) : (s.issueAll p).engine = s.engine := rfl

@[simp] theorem State.issueAll_mem (s : State) (p : List Instr) : (s.issueAll p).mem = s.mem := rfl

@[simp] theorem State.issueAll_pending (s : State) (p : List Instr) : (s.issueAll p).pending = s.pending ++ p.map fun i => .frame (encode i) := rfl

@[simp] theorem State.issueAll_responses (s : State) (p : List Instr) : (s.issueAll p).responses = s.responses := rfl

@[simp] theorem State.issueAll_reads (s : State) (p : List Instr) : (s.issueAll p).reads = s.reads := rfl

/-! ## Consuming a byte -/

@[simp] theorem Engine.consume_phase (e : Engine) (b : Byte) : (e.consume b).phase = .accumulating := rfl

@[simp] theorem Engine.consume_core (e : Engine) (b : Byte) : (e.consume b).core = e.core := rfl

@[simp] theorem Engine.consume_cbits (e : Engine) (b : Byte) : (e.consume b).cbits = e.cbits := rfl

@[simp] theorem Engine.consume_width (e : Engine) (b : Byte) : (e.consume b).width = e.width := rfl

@[simp] theorem Engine.consume_moves (e : Engine) (b : Byte) : (e.consume b).moves = e.moves := rfl

@[simp] theorem Engine.consume_poly (e : Engine) (b : Byte) : (e.consume b).poly = e.poly := rfl

@[simp] theorem Engine.consume_init (e : Engine) (b : Byte) : (e.consume b).init = e.init := rfl

@[simp] theorem Engine.consume_xorout (e : Engine) (b : Byte) : (e.consume b).xorout = e.xorout := rfl

@[simp] theorem Engine.consume_refin (e : Engine) (b : Byte) : (e.consume b).refin = e.refin := rfl

@[simp] theorem Engine.consume_refout (e : Engine) (b : Byte) : (e.consume b).refout = e.refout := rfl

@[simp] theorem Engine.consume_reg (e : Engine) (b : Byte) : (e.consume b).reg = e.updateByte e.reg b := rfl

@[simp] theorem Engine.consume_table (e : Engine) (b : Byte) : (e.consume b).table = e.table := rfl

/-! ## Rewinding -/

@[simp] theorem Engine.rewind_phase (e : Engine) : (e.rewind).phase = .ready := rfl

@[simp] theorem Engine.rewind_core (e : Engine) : (e.rewind).core = e.core := rfl

@[simp] theorem Engine.rewind_cbits (e : Engine) : (e.rewind).cbits = e.cbits := rfl

@[simp] theorem Engine.rewind_width (e : Engine) : (e.rewind).width = e.width := rfl

@[simp] theorem Engine.rewind_moves (e : Engine) : (e.rewind).moves = e.moves := rfl

@[simp] theorem Engine.rewind_poly (e : Engine) : (e.rewind).poly = e.poly := rfl

@[simp] theorem Engine.rewind_init (e : Engine) : (e.rewind).init = e.init := rfl

@[simp] theorem Engine.rewind_xorout (e : Engine) : (e.rewind).xorout = e.xorout := rfl

@[simp] theorem Engine.rewind_refin (e : Engine) : (e.rewind).refin = e.refin := rfl

@[simp] theorem Engine.rewind_refout (e : Engine) : (e.rewind).refout = e.refout := rfl

@[simp] theorem Engine.rewind_reg (e : Engine) : (e.rewind).reg = e.init := rfl

@[simp] theorem Engine.rewind_table (e : Engine) : (e.rewind).table = e.table := rfl

/-! ## A new engine instance -/

@[simp] theorem Engine.create_phase (c : Core) (op : ConfigOperands) : (Engine.create c op).phase = .ready := rfl

@[simp] theorem Engine.create_core (c : Core) (op : ConfigOperands) : (Engine.create c op).core = c := rfl

@[simp] theorem Engine.create_cbits (c : Core) (op : ConfigOperands) : (Engine.create c op).cbits = cbitsOf c (widthNat op) := rfl

@[simp] theorem Engine.create_width (c : Core) (op : ConfigOperands) : (Engine.create c op).width = widthNat op := rfl

@[simp] theorem Engine.create_moves (c : Core) (op : ConfigOperands) : (Engine.create c op).moves = cbitsOf c (widthNat op) - widthNat op := rfl

@[simp] theorem Engine.create_poly (c : Core) (op : ConfigOperands) : (Engine.create c op).poly = align (cbitsOf c (widthNat op)) (widthNat op) op.refin op.poly := rfl

@[simp] theorem Engine.create_init (c : Core) (op : ConfigOperands) : (Engine.create c op).init = align (cbitsOf c (widthNat op)) (widthNat op) op.refin op.init := rfl

@[simp] theorem Engine.create_xorout (c : Core) (op : ConfigOperands) : (Engine.create c op).xorout = trunc (widthNat op) op.xorout := rfl

@[simp] theorem Engine.create_refin (c : Core) (op : ConfigOperands) : (Engine.create c op).refin = op.refin := rfl

@[simp] theorem Engine.create_refout (c : Core) (op : ConfigOperands) : (Engine.create c op).refout = op.refout := rfl

@[simp] theorem Engine.create_reg (c : Core) (op : ConfigOperands) : (Engine.create c op).reg = align (cbitsOf c (widthNat op)) (widthNat op) op.refin op.init := rfl

@[simp] theorem Engine.create_table (c : Core) (op : ConfigOperands) : (Engine.create c op).table = if op.withtable then some (Table.generate (cbitsOf c (widthNat op)) (align (cbitsOf c (widthNat op)) (widthNat op) op.refin op.poly) op.refin) else none := rfl

/-! ## A sequence of bytes -/

@[simp] theorem Engine.feed_nil (e : Engine) : e.feed [] = e := rfl

@[simp] theorem Engine.feed_cons (e : Engine) (b : Byte) (bs : List Byte) : e.feed (b :: bs) = (e.consume b).feed bs := rfl

theorem Engine.feed_append (e : Engine) (xs ys : List Byte) : e.feed (xs ++ ys) = (e.feed xs).feed ys := by
  simp [Engine.feed]

/-- Feeding bytes changes `REG` and `PHASE` only. -/
theorem Engine.feed_frame (e : Engine) (bs : List Byte) :
    ∃ r p, e.feed bs = { e with reg := r, phase := p } := by
  induction bs generalizing e with
  | nil => exact ⟨e.reg, e.phase, rfl⟩
  | cons b bs ih =>
    obtain ⟨r, p, h⟩ := ih (e.consume b)
    exact ⟨r, p, by rw [Engine.feed_cons, h]; rfl⟩

/-! ## The state after reset -/

@[simp] theorem State.reset_engine : State.reset.engine = none := rfl

@[simp] theorem State.reset_mem : State.reset.mem = [] := rfl

@[simp] theorem State.reset_pending : State.reset.pending = [] := rfl

@[simp] theorem State.reset_responses : State.reset.responses = [] := rfl

@[simp] theorem State.reset_reads : State.reset.reads = [] := rfl

end Sys2Proof.Machine
end

