-- ==== Sys2Proof/Laws/Memory.lean ====
section
/-! SUPPORT. The host buffer space: a read after a write, and that the one write keeps the canonical form. -/

namespace Sys2Proof.Machine

/-- Below its first address a canonical memory reads 0x00. -/
theorem Memory.read_below (m : Memory) (lo a : Nat) (h : Memory.wfFrom lo m = true) (ha : a < lo) :
    Memory.read m a = 0 := by
  induction m generalizing lo with
  | nil => rfl
  | cons c m ih =>
    obtain ⟨x, b⟩ := c
    simp only [Memory.wfFrom, Bool.and_eq_true, decide_eq_true_eq] at h
    rw [Memory.read, if_neg (by omega)]
    exact ih (x + 1) h.2 (by omega)

/-- A canonical memory stays canonical from a lower address on. -/
theorem Memory.wfFrom_mono (m : Memory) (lo lo' : Nat) (h : Memory.wfFrom lo m = true) (hl : lo' ≤ lo) :
    Memory.wfFrom lo' m = true := by
  cases m with
  | nil => rfl
  | cons c m =>
    obtain ⟨x, b⟩ := c
    simp only [Memory.wfFrom, Bool.and_eq_true, decide_eq_true_eq] at h ⊢
    exact ⟨⟨⟨by omega, h.1.1.2⟩, h.1.2⟩, h.2⟩

/-- What the host's write does to every byte: the written one holds the value, every other one is as before. -/
theorem Memory.read_write (m : Memory) (lo a x : Nat) (v : Byte) (h : Memory.wfFrom lo m = true) :
    Memory.read (m.write a v) x = if x = a then v else Memory.read m x := by
  induction m generalizing lo with
  | nil =>
    rw [Memory.write]
    by_cases hv : v = 0
    · rw [if_pos hv, hv]
      exact (ite_self _).symm
    · rw [if_neg hv]
      simp only [Memory.read, eq_comm]
  | cons c m ih =>
    obtain ⟨y, b⟩ := c
    simp only [Memory.wfFrom, Bool.and_eq_true, decide_eq_true_eq] at h
    have below := fun z hz => Memory.read_below m (y + 1) z h.2 hz
    rw [Memory.write]
    by_cases h1 : a < y
    · rw [if_pos h1]
      by_cases hv : v = 0
      · rw [if_pos hv]
        by_cases hx : x = a
        · subst hx
          rw [if_pos rfl, Memory.read, if_neg (by omega), below x (by omega), hv]
        · rw [if_neg hx]
      · rw [if_neg hv]
        simp only [Memory.read, eq_comm]
    · rw [if_neg h1]
      by_cases h2 : a = y
      · subst h2
        rw [if_pos rfl]
        by_cases hv : v = 0
        · rw [if_pos hv]
          by_cases hx : x = a
          · rw [if_pos hx, hx, below a (by omega), hv]
          · rw [if_neg hx, Memory.read, if_neg (Ne.symm hx)]
        · rw [if_neg hv]
          by_cases hx : x = a
          · rw [if_pos hx, Memory.read, if_pos hx.symm]
          · rw [if_neg hx, Memory.read, Memory.read, if_neg (Ne.symm hx), if_neg (Ne.symm hx)]
      · rw [if_neg h2, Memory.read, Memory.read, ih (y + 1) h.2]
        split_ifs <;> first | rfl | omega

/-- The host's write keeps the canonical form. -/
theorem Memory.wfFrom_write (m : Memory) (lo a : Nat) (v : Byte) (h : Memory.wfFrom lo m = true) (hlo : lo ≤ a)
    (ha : a < Config.memSize) : Memory.wfFrom lo (m.write a v) = true := by
  induction m generalizing lo with
  | nil =>
    rw [Memory.write]
    split_ifs with hv
    · rfl
    · simp only [Memory.wfFrom, Bool.and_eq_true, decide_eq_true_eq]
      exact ⟨⟨⟨hlo, ha⟩, hv⟩, trivial⟩
  | cons c m ih =>
    obtain ⟨y, b⟩ := c
    have h' := h
    simp only [Memory.wfFrom, Bool.and_eq_true, decide_eq_true_eq] at h
    unfold Memory.write
    split_ifs with h1 h2 h3 h4
    · exact h'
    · simp only [Memory.wfFrom, Bool.and_eq_true, decide_eq_true_eq]
      exact ⟨⟨⟨hlo, ha⟩, h2⟩, ⟨⟨by omega, h.1.1.2⟩, h.1.2⟩, h.2⟩
    · exact Memory.wfFrom_mono m (y + 1) lo h.2 (by omega)
    · simp only [Memory.wfFrom, Bool.and_eq_true, decide_eq_true_eq]
      exact ⟨⟨⟨hlo, ha⟩, h4⟩, h3 ▸ h.2⟩
    · simp only [Memory.wfFrom, Bool.and_eq_true, decide_eq_true_eq]
      exact ⟨h.1, ih (y + 1) h.2 (by omega)⟩

/-- A write by the host to one of its 2^64 addresses keeps the canonical form. -/
theorem Memory.wf_write (m : Memory) (a : Addr) (v : Byte) (h : m.wf = true) : (m.write a.toNat v).wf = true :=
  Memory.wfFrom_write m 0 a.toNat v h (Nat.zero_le _) a.isLt

theorem State.reset_mem_wf : State.reset.mem.wf = true := rfl

@[simp] theorem Memory.bytes_length (m : Memory) (a n : Nat) : (m.bytes a n).length = n := by
  induction n generalizing a with
  | zero => rfl
  | succ n ih => simp [Memory.bytes, ih]

/-- The bytes of a range, address by address. -/
theorem Memory.bytes_eq_map (m : Memory) (a n : Nat) : m.bytes a n = (List.range' a n).map (Memory.read m) := by
  induction n generalizing a with
  | zero => rfl
  | succ n ih => simp [Memory.bytes, ih, List.range'_succ]

end Sys2Proof.Machine
end

