-- ==== Sys2Proof/Laws/Ops.lean ====
section
/-! SUPPORT. One spec lemma per shared operation: what a response, an error response, the NotConfigured check, the loop
of UPDBUF, a command and a step can do. -/

namespace Sys2Proof.Machine

/-! ## Ending a command -/

theorem answer_eq (r : Response) (s : State) : answer r s = .next { s with responses := s.responses ++ [r] } := rfl

/-- Taking an error response changes nothing but that the response is sent (60 R138). -/
theorem raise_eq (err : CommandError) (s : State) :
    raise err s = .next { s with responses := s.responses ++ [.error err] } := rfl

theorem withEngine_none (s : State) (k : Engine → Host.Outcome State Fault Refusal) (h : s.engine = none) :
    withEngine s k = raise .notConfigured s := by
  simp [withEngine, h]

theorem withEngine_some (s : State) (k : Engine → Host.Outcome State Fault Refusal) (e : Engine)
    (h : s.engine = some e) : withEngine s k = k e := by
  simp [withEngine, h]

/-! ## Operand checks -/

theorem configError_eq_none_iff (op : ConfigOperands) : configError op = none ↔ Admissible op := by
  unfold configError Admissible widthInt
  split_ifs <;> simp <;> omega

/-- CONFIG has one error, InvalidArgument(width) (60 R132). -/
theorem configError_cases (op : ConfigOperands) :
    configError op = none ∨ configError op = some (.invalidArgument .width) := by
  unfold configError
  split_ifs <;> simp

theorem bufferError_eq_none_iff (buf : BufferOperands) : bufferError buf = none ↔ InRange buf := by
  unfold bufferError InRange offsetInt lengthInt Config.memSize
  cases buf.present <;> simp
  split_ifs <;> simp <;> omega

/-- UPDBUF's argument errors (60 R133, R134). -/
theorem bufferError_cases (buf : BufferOperands) :
    bufferError buf = none ∨ bufferError buf = some (.invalidArgument .buffer) ∨
      bufferError buf = some (.invalidArgument .range) := by
  unfold bufferError
  split_ifs <;> simp

/-! ## The loop of UPDBUF -/

/-- The loop consumes the bytes of its range and reads exactly these addresses, in ascending order. -/
theorem consumeRange_eq (n addr : Nat) (e : Engine) (s : State) :
    consumeRange n addr e s =
      { s with engine := some (e.feed (s.mem.bytes addr n)), reads := s.reads ++ List.range' addr n } := by
  induction n generalizing addr e s with
  | zero => simp [consumeRange, Memory.bytes, State.setEngine]
  | succ n ih => simp [consumeRange, ih, Memory.bytes, List.range'_succ]

/-! ## The commands -/

theorem execConfig_admissible (op : ConfigOperands) (s : State) (h : Admissible op) :
    execConfig op s = answer .ok (s.setEngine (Engine.create (configCore op) op)) := by
  simp [execConfig, (configError_eq_none_iff op).2 h]

theorem execUpdbuf_inRange (buf : BufferOperands) (s : State) (e : Engine) (he : s.engine = some e)
    (h : InRange buf) :
    execUpdbuf buf s = answer .ok (consumeRange (byteCount buf) (firstAddr buf) e s) := by
  simp [execUpdbuf, withEngine_some s _ e he, (bufferError_eq_none_iff buf).2 h]

/-- A command that consumes bytes, in a configured block: the bytes go into the register in order, the response is OK. -/
theorem exec_consumes (i : Instr) (s : State) (e : Engine) (he : s.engine = some e) (h : Consumes i) :
    exec i s = .next { s with engine := some (e.feed (consumedBytes s.mem i))
                              responses := s.responses ++ [.ok], reads := s.reads ++ consumedAddrs i } := by
  cases i with
  | config _ => exact h.elim
  | upd b => simp [exec, execUpd, withEngine, he, answer_eq, State.setEngine, consumedBytes, consumedAddrs, Engine.feed]
  | updbuf buf =>
    simp only [exec, execUpdbuf_inRange buf s e he h, answer_eq, consumeRange_eq, consumedBytes, consumedAddrs]
  | fin => exact h.elim
  | rst => exact h.elim

/-- All a command can do: replace or change the engine instance, send one response, read buffer addresses. -/
theorem exec_cases (i : Instr) (s : State) :
    ∃ e r l, exec i s = .next { s with engine := e, responses := s.responses ++ [r], reads := s.reads ++ l } := by
  have stay : ∀ err, ∃ e r l, raise err s =
      .next { s with engine := e, responses := s.responses ++ [r], reads := s.reads ++ l } :=
    fun err => ⟨s.engine, .error err, [], by simp [raise_eq]⟩
  cases i with
  | config op =>
    simp only [exec, execConfig]
    cases configError op with
    | some err => exact stay err
    | none => exact ⟨some (Engine.create (configCore op) op), .ok, [], by simp [answer_eq, State.setEngine]⟩
  | upd b =>
    simp only [exec, execUpd]
    cases he : s.engine with
    | none => simpa [withEngine, he] using stay .notConfigured
    | some e => exact ⟨some (e.consume b), .ok, [], by simp [withEngine, he, answer_eq, State.setEngine]⟩
  | updbuf buf =>
    simp only [exec, execUpdbuf]
    cases he : s.engine with
    | none => simpa [withEngine, he] using stay .notConfigured
    | some e =>
      simp only [withEngine, he]
      cases bufferError buf with
      | some err => exact stay err
      | none => exact ⟨_, .ok, _, by simp [answer_eq, consumeRange_eq]; exact ⟨rfl, rfl⟩⟩
  | fin =>
    simp only [exec, execFin]
    cases he : s.engine with
    | none => simpa [withEngine, he] using stay .notConfigured
    | some e =>
      exact ⟨some e.rewind, .okValue e.finValue e.nbytes, [], by simp [withEngine, he, answer_eq, State.setEngine]⟩
  | rst =>
    simp only [exec, execRst]
    cases he : s.engine with
    | none => simpa [withEngine, he] using stay .notConfigured
    | some e => exact ⟨some e.rewind, .ok, [], by simp [withEngine, he, answer_eq, State.setEngine]⟩

/-! ## The step -/

theorem step_idle (s : State) (h : s.pending = []) : step s = .next s := by
  simp [step, State.takeEvent, idle, h]

theorem step_hostWrite (s : State) (a : Addr) (v : Byte) (rest : List HostEvent)
    (h : s.pending = .hostWrite a v :: rest) :
    step s = .next (({ s with pending := rest } : State).hostWrite a v) := by
  simp [step, State.takeEvent, h]

theorem step_illegal (s : State) (f : List Byte) (rest : List HostEvent) (err : DecodeError)
    (h : s.pending = .frame f :: rest) (hd : decode f = .error err) :
    step s = raise .illegalCommand { s with pending := rest } := by
  simp [step, State.takeEvent, h, hd]

/-- All a step can do: idle, run a decoded command, refuse an illegal frame, or serve a host event. -/
theorem step_cases (s : State) :
    (s.pending = [] ∧ step s = .next s) ∨
    (∃ f rest i, s.pending = .frame f :: rest ∧ decode f = .ok i ∧ step s = exec i { s with pending := rest }) ∨
    (∃ f rest err, s.pending = .frame f :: rest ∧ decode f = .error err ∧
      step s = raise .illegalCommand { s with pending := rest }) ∨
    (∃ a v rest, s.pending = .hostWrite a v :: rest ∧
      step s = .next (({ s with pending := rest } : State).hostWrite a v)) ∨
    (∃ rest, s.pending = .hardwareReset :: rest ∧
      step s = .next ({ s with pending := rest } : State).hardwareReset) := by
  cases hp : s.pending with
  | nil => exact .inl ⟨rfl, step_idle s hp⟩
  | cons ev rest =>
    right
    cases ev with
    | frame f =>
      cases hd : decode f with
      | ok i => exact .inl ⟨f, rest, i, rfl, hd, by simp [step, State.takeEvent, hp, hd]⟩
      | error err => exact .inr (.inl ⟨f, rest, err, rfl, hd, step_illegal s f rest err hp hd⟩)
    | hostWrite a v => exact .inr (.inr (.inl ⟨a, v, rest, rfl, step_hostWrite s a v rest hp⟩))
    | hardwareReset => exact .inr (.inr (.inr ⟨rest, rfl, by simp [step, State.takeEvent, hp]⟩))

end Sys2Proof.Machine
end

