-- ==== Sys2Proof/Laws/PerInstr.lean ====
section
/-! SUPPORT. A fact about every command as syntax: byte 0 of its frame is its opcode and the frame has the length its
format gives it (30_encoding R41, R42). One lemma per constructor. -/

namespace Sys2Proof.Laws.EncodedFrame

/-- The opcode of a command (30 R42). -/
def opcode : Instr → Byte
  | .config _ => 0x01
  | .upd _    => 0x02
  | .updbuf _ => 0x03
  | .fin      => 0x04
  | .rst      => 0x05

/-- The length of a command's frame (30 R42). -/
def frameLength : Instr → Nat
  | .config op => 8 + 3 * op.nb.toNat
  | .upd _     => 2
  | .updbuf _  => 22
  | .fin       => 1
  | .rst       => 1

/-- Byte 0 of the frame is the opcode, and the frame has the length of its format. -/
def Statement (i : Instr) : Prop := (encode i).head? = some (opcode i) ∧ (encode i).length = frameLength i

theorem config (op : ConfigOperands) : Statement (.config op) := by
  refine ⟨rfl, ?_⟩
  simp [encode, frameLength]
  omega

theorem upd (data : Byte) : Statement (.upd data) := ⟨rfl, rfl⟩

theorem updbuf (buf : BufferOperands) : Statement (.updbuf buf) := by
  refine ⟨rfl, ?_⟩
  simp [encode, frameLength]

theorem fin : Statement .fin := ⟨rfl, rfl⟩

theorem rst : Statement .rst := ⟨rfl, rfl⟩

end Sys2Proof.Laws.EncodedFrame
end

