-- ==== Sys2Proof/Laws/Shards.lean ====
section
/-! SUPPORT. The small lemmas of the shard level (44_multiword): the fields of the engine instance that arrays represent,
feeding bytes, and what a command on arrays can do. -/

namespace Sys2Proof.Machine

/-! ## The represented engine instance -/

@[simp] theorem ShardEngine.toEngine_core (e : ShardEngine) : e.toEngine.core = .multi := rfl

@[simp] theorem ShardEngine.toEngine_cbits (e : ShardEngine) : e.toEngine.cbits = 8 * e.reg.length := rfl

@[simp] theorem ShardEngine.toEngine_phase (e : ShardEngine) : e.toEngine.phase = e.phase := rfl

@[simp] theorem ShardEngine.toEngine_width (e : ShardEngine) : e.toEngine.width = e.width := rfl

@[simp] theorem ShardEngine.toEngine_moves (e : ShardEngine) : e.toEngine.moves = e.moves := rfl

@[simp] theorem ShardEngine.toEngine_refin (e : ShardEngine) : e.toEngine.refin = e.refin := rfl

@[simp] theorem ShardEngine.toEngine_refout (e : ShardEngine) : e.toEngine.refout = e.refout := rfl

@[simp] theorem ShardEngine.toEngine_poly (e : ShardEngine) : e.toEngine.poly = Shards.val e.poly := rfl

@[simp] theorem ShardEngine.toEngine_init (e : ShardEngine) : e.toEngine.init = Shards.val e.init := rfl

@[simp] theorem ShardEngine.toEngine_xorout (e : ShardEngine) : e.toEngine.xorout = Shards.val e.xorout := rfl

@[simp] theorem ShardEngine.toEngine_reg (e : ShardEngine) : e.toEngine.reg = Shards.val e.reg := rfl

/-! ## Feeding bytes -/

@[simp] theorem ShardEngine.feed_nil (e : ShardEngine) : e.feed [] = e := rfl

@[simp] theorem ShardEngine.feed_cons (e : ShardEngine) (b : Byte) (bs : List Byte) :
    e.feed (b :: bs) = (e.consume b).feed bs := rfl

theorem ShardEngine.feed_append (e : ShardEngine) (xs ys : List Byte) : e.feed (xs ++ ys) = (e.feed xs).feed ys :=
  List.foldl_append

/-! ## The commands on arrays -/

/-- In an unconfigured block every command but CONFIG is NotConfigured (60 R135). -/
theorem multiExec_none (i : Instr) (mem : Memory) (h : ∀ op, i ≠ .config op) :
    multiExec i none mem = ⟨none, .error .notConfigured, []⟩ := by
  cases i with
  | config op => exact absurd rfl (h op)
  | upd _ => rfl
  | updbuf _ => rfl
  | fin => rfl
  | rst => rfl

/-- A command that ends in an error response leaves the arrays as they were and reads nothing (60 R138). -/
theorem multiExec_error (i : Instr) (se : Option ShardEngine) (mem : Memory) (err : CommandError)
    (h : (multiExec i se mem).response = .error err) : multiExec i se mem = ⟨se, .error err, []⟩ := by
  cases i with
  | config op =>
    simp only [multiExec, multiConfig] at h ⊢
    cases hc : configError op <;> simp_all [multiRaise]
  | upd b => cases se <;> simp_all [multiExec, multiWithEngine, multiRaise, multiUpd]
  | updbuf buf =>
    cases se with
    | none => simp_all [multiExec, multiWithEngine, multiRaise]
    | some e =>
      simp only [multiExec, multiWithEngine, multiUpdbuf] at h ⊢
      cases hb : bufferError buf <;> simp_all [multiRaise]
  | fin => cases se <;> simp_all [multiExec, multiWithEngine, multiRaise, multiFin]
  | rst => cases se <;> simp_all [multiExec, multiWithEngine, multiRaise, multiRst]

end Sys2Proof.Machine
end

