-- ==== Sys2Proof/Tests/Slice0.lean ====
section
/-! SUPPORT. The model's own tests, with expected values from the spec's worked examples and vectors, and for each
statement with hypotheses a named witness that meets them. -/

namespace Sys2Proof.Tests

open Sys2Proof Sys2Proof.Machine

/-! ## Well-formedness: one ill-formed term per check, and the bound itself -/

theorem test_wellFormed_refuses_poly :
    (Instr.config ⟨.auto, false, false, false, 8, 1, 256, 0, 0⟩).wellFormed = false := by decide

theorem test_wellFormed_refuses_init :
    (Instr.config ⟨.auto, false, false, false, 8, 1, 0, 256, 0⟩).wellFormed = false := by decide

theorem test_wellFormed_refuses_xorout :
    (Instr.config ⟨.auto, false, false, false, 8, 0, 0, 0, 1⟩).wellFormed = false := by decide

theorem test_wellFormed_accepts_the_largest :
    (Instr.config ⟨.auto, false, false, false, 8, 1, 255, 255, 255⟩).wellFormed = true := by decide

/-! ## Decoding: words written out bit by bit from 30 R43 to R47 -/

/-- Byte 1 = core 010, refin 1, refout 1, withtable 1, reserved 00 (30 R43, R56). -/
theorem test_decode_config :
    decode [0b00000001, 0b01011100, 0x00, 0x00, 0x00, 0x05, 0x00, 0x01, 0x05, 0x1F, 0x1E] =
      .ok (.config ⟨.c16, true, true, true, 5, 1, 0x05, 0x1F, 0x1E⟩) := by decide

/-- Byte 1 = core 100, refin 0, refout 1, withtable 0; width -1; two bytes an operand (30 R43, R48). -/
theorem test_decode_config_fields :
    decode [0b00000001, 0b10001000, 0xFF, 0xFF, 0xFF, 0xFF, 0x00, 0x02, 0x10, 0x21, 0xAB, 0xCD, 0x12, 0x34] =
      .ok (.config ⟨.multi, false, true, false, -1, 2, 0x1021, 0xABCD, 0x1234⟩) := by decide

/-- `00000010 dddddddd` (30 R44). -/
theorem test_decode_upd : decode [0b00000010, 0b10110001] = .ok (.upd 0xB1) := by decide

/-- Every field with a value of its own (30 R45). -/
theorem test_decode_updbuf :
    decode [0b00000011, 0b00000001, 0x01, 0x02, 0x03, 0x04, 0x05, 0x06, 0x07, 0x08, 0x11, 0x12, 0x13, 0x14,
        0x21, 0x22, 0x23, 0x24, 0xFF, 0xFF, 0xFF, 0xFE] =
      .ok (.updbuf ⟨true, 0x0102030405060708, 0x11121314, 0x21222324, -2⟩) := by decide

theorem test_decode_fin : decode [0b00000100] = .ok .fin := by decide

theorem test_decode_rst : decode [0b00000101] = .ok .rst := by decide

/-- The refused frames of 95 section 2.8, with the reason the decoder names. -/
theorem test_decode_refuses :
    decode [] = .error .empty ∧ decode [0x00] = .error .unknownOpcode ∧ decode [0x06] = .error .unknownOpcode ∧
    decode [0xFF] = .error .unknownOpcode ∧ decode [0x02] = .error .wrongLength ∧
    decode [0x02, 0x31, 0x00] = .error .wrongLength ∧ decode [0x04, 0x00] = .error .wrongLength ∧
    decode [0x05, 0x00] = .error .wrongLength ∧
    decode ([0x03, 0x01] ++ List.replicate 19 0) = .error .wrongLength ∧
    decode [0x01, 0x04, 0x00, 0x00, 0x00, 0x08, 0x00] = .error .wrongLength ∧
    decode [0x01, 0x04, 0x00, 0x00, 0x00, 0x08, 0x00, 0x01, 0x07, 0x00] = .error .wrongLength ∧
    decode [0x01, 0xA4, 0x00, 0x00, 0x00, 0x08, 0x00, 0x01, 0x07, 0x00, 0x00] = .error .reservedCore ∧
    decode [0x01, 0x05, 0x00, 0x00, 0x00, 0x08, 0x00, 0x01, 0x07, 0x00, 0x00] = .error .reservedBits ∧
    decode ([0x03, 0x03] ++ List.replicate 20 0) = .error .reservedBits := by decide

/-- The opcode table's numbering: byte 1 of the frame is bits 15..8. -/
theorem test_decodeTableWord :
    decodeTableWord 16 0x3102 = some (.upd 0x31) ∧ decodeTableWord 8 0x02 = some (.upd 0) ∧
    decodeTableWord 8 0x01 = some (.config ⟨.auto, false, false, false, 0, 0, 0, 0, 0⟩) ∧
    decodeTableWord 8 0x03 = some (.updbuf ⟨false, 0, 0, 0, 0⟩) ∧ decodeTableWord 8 0x04 = some .fin ∧
    decodeTableWord 8 0x05 = some .rst ∧ decodeTableWord 8 0x06 = none ∧ decodeTableWord 16 0x04 = none := by decide

/-! ## Primitives and shards: 95 section 2.1, 44 R116, R117, R119 -/

theorem test_primitives :
    rev 5 0x05 = 0x14 ∧ rev 12 0x80F = 0xF01 ∧ rev 64 0x04C11DB700000000 = 0x00000000EDB88320 ∧
    trunc 5 0xE5 = 0x05 ∧ shl1 8 0xC1 = 0x82 ∧ shr1 0x83 = 0x41 ∧ align 8 5 false 0xE5 = 0x28 ∧
    align 8 5 true 0x05 = 0x14 ∧ align 64 32 false 0x04C11DB7 = 0x04C11DB700000000 := by decide +kernel

theorem test_shards :
    Shards.shl1 [0x80, 0x01, 0xFF] = [0x00, 0x03, 0xFE] ∧ Shards.shr1 [0x80, 0x01, 0xFF] = [0x40, 0x00, 0xFF] ∧
    Shards.rev [0x80, 0x01, 0xFF] = [0xFF, 0x80, 0x01] := by decide

/-- 44 R126, R123: width 82, the aligned polynomial and `TABLE[0x31]`. -/
theorem test_shards_width82 :
    Shards.align 11 6 true (beBytes 11 0x0308C0111011401440411) =
      [0x02, 0x20, 0x80, 0x8A, 0x00, 0xA2, 0x02, 0x22, 0x00, 0xC4, 0x30] ∧
    Shards.entry 11 [0x02, 0x20, 0x80, 0x8A, 0x00, 0xA2, 0x02, 0x22, 0x00, 0xC4, 0x30] true 0x31 =
      [0x01, 0x50, 0x11, 0x55, 0x54, 0x44, 0x05, 0x51, 0x04, 0x7B, 0x16] := by decide +kernel

/-- 41 R82, R83, 95 section 2.3: entries of the tables of V1, V2, V3, V4. -/
theorem test_table :
    (Table.generate 8 0x07 false).lookup 0x31 = 0x97 ∧ (Table.generate 16 0x1021 false).lookup 0xFF = 0x1EF0 ∧
    (Table.generate 64 0xEDB88320 true).lookup 0x01 = 0x77073096 ∧
    (Table.generate 8 0x14 true).lookup 0x2E = 0x03 := by decide +kernel

/-! ## The commands: one step each from small states -/

/-- The operands of V1: width 8, poly 0x07, table. -/
def opV1 : ConfigOperands := ⟨.auto, false, false, true, 8, 1, 0x07, 0x00, 0x00⟩

/-- The operands of V4: width 5, reflected, no table. -/
def opV4 : ConfigOperands := ⟨.auto, true, true, false, 5, 1, 0x05, 0x1F, 0x1F⟩

/-- The operands of P5: width 82, reflected, table, core MULTI by AUTO. -/
def op82 : ConfigOperands := ⟨.auto, true, true, true, 82, 11, 0x0308C0111011401440411, 0, 0⟩

/-- A block configured with `op` on its fixed-width core, register `r`, and S9 in memory at 0x100. -/
def configured (c : Core) (op : ConfigOperands) (r : Nat) (p : Activity) : State :=
  { State.reset with
    engine := some { Engine.create c op with reg := r, phase := p }
    mem := [(0x100, 0x31), (0x101, 0x32), (0x102, 0x33), (0x103, 0x34), (0x104, 0x35), (0x105, 0x36), (0x106, 0x37),
      (0x107, 0x38), (0x108, 0x39)] }

/-- The register after an outcome, where there is one. -/
def regOf : Host.Outcome State Fault Refusal → Option Nat
  | .next t => t.engine.map Engine.reg
  | _       => none

/-- The last response of an outcome, as its frame. -/
def wireOf : Host.Outcome State Fault Refusal → List Byte
  | .next t => (t.responses.getLast?.map Response.wire).getD []
  | _       => []

/-- 41 R75's example: CONFIG of CRC-5 gives POLY 0x14, INIT 0x1F, C 8, m 3. -/
theorem test_config :
    (match exec (.config opV4) State.reset with
      | .next t => t.engine
      | _ => none) =
      some ⟨.ready, .c8, 8, 5, 3, 0x14, 0x1F, 0x1F, true, true, 0x1F, none⟩ := by decide +kernel

/-- 95 section 2.2: core C8 with width 9 is refused and the configuration stays. -/
theorem test_config_refused :
    wireOf (exec (.config ⟨.c8, false, false, true, 9, 2, 7, 0, 0⟩) (configured .c8 opV4 0x1D .accumulating)) =
      [0x01, 0x01] ∧
    regOf (exec (.config ⟨.c8, false, false, true, 9, 2, 7, 0, 0⟩) (configured .c8 opV4 0x1D .accumulating)) =
      some 0x1D := by decide +kernel

/-- 42 R92, R93: a byte by the reflected rounds and by the forward table. -/
theorem test_upd :
    regOf (exec (.upd 0x31) (configured .c8 opV4 0x1F .ready)) = some 0x03 ∧
    regOf (exec (.upd 0x33) (configured .c8 opV1 0x72 .accumulating)) = some 0xC0 := by decide +kernel

theorem test_upd_not_configured : wireOf (exec (.upd 0x31) State.reset) = [0x02] := by decide

/-- 95 section 2.5: all of S9, and two bytes in the middle. -/
theorem test_updbuf :
    regOf (exec (.updbuf ⟨true, 0x100, 9, 0, 9⟩) (configured .c8 opV1 0 .ready)) = some 0xF4 ∧
    regOf (exec (.updbuf ⟨true, 0x100, 9, 3, 2⟩) (configured .c8 opV1 0 .ready)) = some 0x26 := by decide +kernel

/-- 95 section 2.5: the sums do not wrap. -/
theorem test_updbuf_refused :
    wireOf (exec (.updbuf ⟨true, 0x100, 0xFFFFFFFD, 0x7FFFFFFF, 0x7FFFFFFF⟩) (configured .c8 opV1 0 .ready)) =
      [0x01, 0x03] ∧
    wireOf (exec (.updbuf ⟨true, 0xFFFFFFFFFFFFFFFF, 2, 0, 0⟩) (configured .c8 opV1 0 .ready)) =
      [0x01, 0x02] := by decide +kernel

/-- 95 section 2.6: w 5, refin 1, refout 1 and w 12, refin 0, refout 1. -/
theorem test_fin :
    wireOf (exec .fin (configured .c8 opV4 0x06 .accumulating)) = [0x00, 0x00, 0x01, 0x19] ∧
    wireOf (exec .fin (configured .c16 ⟨.auto, false, true, false, 12, 2, 0x80F, 0, 0⟩ 0xF5B0 .accumulating)) =
      [0x00, 0x00, 0x02, 0x0D, 0xAF] := by decide +kernel

theorem test_fin_resets : regOf (exec .fin (configured .c8 opV4 0x06 .accumulating)) = some 0x1F := by decide +kernel

/-- 95 section 2.7. -/
theorem test_rst :
    regOf (exec .rst (configured .c16 ⟨.auto, false, false, false, 16, 2, 0x1021, 0xFFFF, 0⟩ 0xC782 .accumulating)) =
      some 0xFFFF := by decide +kernel

theorem test_rst_not_configured : wireOf (exec .rst State.reset) = [0x02] := by decide

/-- 60 R137's example: a frame that is illegal is IllegalCommand in every phase. -/
theorem test_step_illegal : wireOf (step (State.reset.issue [0x02, 0x31, 0x00])) = [0x03] := by decide

/-- 30 R54, R55: the text of R56's second row, and the pseudo-instruction CRC. -/
theorem test_assemble :
    (assembleLine "CONFIG core=auto width=16 poly=0x1021 init=0xFFFF xorout=0x0000 refin=0 refout=0 table=1").map
        (fun p => p.map encode) =
      some [[0x01, 0x04, 0x00, 0x00, 0x00, 0x10, 0x00, 0x02, 0x10, 0x21, 0xFF, 0xFF, 0x00, 0x00]] ∧
    assembleLine "UPDBUF buf=0x2000:4 off=-1 len=1 ; a comment" = some [.updbuf ⟨true, 0x2000, 4, -1, 1⟩] ∧
    assembleLine "UPDBUF buf=null off=0 len=0" = some [.updbuf ⟨false, 0, 0, 0, 0⟩] ∧
    assembleLine "UPDSTR \"19\"" = some [.upd 0x31, .upd 0x39] := by decide +kernel

theorem test_assemble_crc :
    assembleLine "CRC core=c16 width=5 poly=0x05 init=0x1F xorout=0x1F refin=1 refout=1 table=1 \"A z\"" =
      some (crcProgram ⟨.c16, true, true, true, 5, 1, 0x05, 0x1F, 0x1F⟩ [0x41, 0x20, 0x7A]) := by decide +kernel

/-! ## Witnesses: states and operands that meet the hypotheses of the statements -/

/-- A good engine instance, reflected, no table. -/
theorem good_V4 : (Engine.create .c8 opV4).Good where
  width_pos := by decide
  width_le := by decide
  cbits_eq := by decide
  moves_eq := by decide
  poly_placed := by decide +kernel
  init_placed := by decide +kernel
  xorout_lt := by decide +kernel
  reg_placed := by decide +kernel
  table_eq := fun t h => by cases h
  ready_reg := fun _ => rfl

/-- A good engine instance, forward, with its table. -/
theorem good_V1 : (Engine.create .c8 opV1).Good where
  width_pos := by decide
  width_le := by decide
  cbits_eq := by decide
  moves_eq := by decide
  poly_placed := by decide +kernel
  init_placed := by decide +kernel
  xorout_lt := by decide +kernel
  reg_placed := by decide +kernel
  table_eq := fun t h => (Option.some.inj h).symm
  ready_reg := fun _ => rfl

theorem admissible_V1 : Admissible opV1 := by decide

theorem admissible_V4 : Admissible opV4 := by decide

/-- Width 82 is admissible for every WMAX. -/
theorem admissible_82 : Admissible op82 := ⟨by decide, Config.wmax_ge⟩

/-- The least and the greatest width of each fixed-width core. -/
theorem admissible_bounds :
    Admissible ⟨.c8, false, false, false, 1, 0, 0, 0, 0⟩ ∧ Admissible ⟨.c8, false, false, false, 8, 0, 0, 0, 0⟩ ∧
    Admissible ⟨.c16, false, false, false, 16, 0, 0, 0, 0⟩ ∧ Admissible ⟨.c64, false, false, false, 64, 0, 0, 0, 0⟩ ∧
    Admissible ⟨.auto, false, false, false, 64, 0, 0, 0, 0⟩ := by
  decide

theorem witness_TruncationAndShiftsBitByBit :
    1 ≤ 5 ∧ 0x1F < 2 ^ 5 ∧ 1 ≤ 1 ∧ 1 < 2 ^ 1 := by decide

theorem witness_ReversalMovesEveryBitAndIsAnInvolution :
    1 ≤ 5 ∧ 0x05 < 2 ^ 5 ∧ 4 < 5 ∧ 0x1F < 2 ^ 5 ∧ 1 ≤ 1 ∧ 1 < 2 ^ 1 := by decide

theorem witness_ContainerReversalSwapsAlignment :
    (1 ≤ 5 ∧ 5 ≤ 8 ∧ 0x05 < 2 ^ 5) ∧ (1 ≤ 8 ∧ 8 ≤ 8 ∧ 0xFF < 2 ^ 8) := by decide

theorem witness_AlignmentPlacesTheSignificantBits : (1 ≤ 1 ∧ 1 ≤ 8) ∧ (1 ≤ 8 ∧ 8 ≤ 8) := by decide

theorem witness_DecodeOfEncodeIsTheCommand :
    (Instr.config op82).wellFormed = true ∧ (Instr.updbuf ⟨false, -1, -1, -1, -1⟩).wellFormed = true := by decide

theorem witness_EncodeOfDecodeIsTheFrame : decode [0x02, 0xFF] = .ok (.upd 0xFF) := by decide

/-- One frame for each way of being illegal. -/
theorem witness_illegal_frames :
    ∀ f ∈ ([[], [0x00], [0x06], [0x01, 0x00, 0, 0, 0, 8, 0], [0x01, 0x00, 0, 0, 0, 8, 0, 0, 0],
        [0x01, 0xA0, 0, 0, 0, 8, 0, 0], [0x01, 0x01, 0, 0, 0, 8, 0, 0], [0x02], [0x03, 0x02] ++ List.replicate 20 0,
        [0x03, 0x01] ++ List.replicate 19 0, [0x04, 0x00], [0x05, 0x00]] : List (List Byte)), IllegalFrame f := by
  decide

/-- One legal frame for each command. -/
theorem witness_legal_frames :
    ∀ f ∈ ([[0x02, 0x00], [0x03, 0x01] ++ List.replicate 20 0, [0x01, 0x9C, 0, 0, 0, 8, 0, 0], [0x04],
        [0x05]] : List (List Byte)), ¬ IllegalFrame f := by
  decide

theorem witness_IllegalFramesAreAnsweredIllegalCommand :
    ((State.reset.issue [0x06]).pending = .frame [0x06] :: [] ∧ IllegalFrame [0x06]) ∧
    ((State.reset.issue [0x04]).pending = .frame [0x04] :: [] ∧ ¬ IllegalFrame [0x04]) :=
  ⟨⟨rfl, by decide⟩, ⟨rfl, by decide⟩⟩

theorem witness_StepRunsTheDecodedCommand :
    (State.reset.issue [0x04]).pending = .frame [0x04] :: [] ∧ decode [0x04] = .ok .fin := by decide

theorem witness_IdleBlockKeepsAllState : State.reset.pending = [] := rfl

theorem witness_HardwareResetLeavesUnconfigured :
    ({ configured .c8 opV4 0x1F .ready with pending := [.hardwareReset] } : State).pending =
      .hardwareReset :: [] := rfl

theorem witness_HostWriteChangesOneByte :
    (configured .c8 opV4 0x1F .ready).mem.wf = true ∧
    ({ configured .c8 opV4 0x1F .ready with pending := [.hostWrite 0x104 0x00] } : State).pending =
      .hostWrite 0x104 0x00 :: [] := by decide +kernel

theorem witness_EveryFrameGetsExactlyOneResponse :
    (∃ f rest, (State.reset.issue [0x06]).pending = .frame f :: rest) ∧
    (∀ f rest, State.reset.pending ≠ .frame f :: rest) := by
  refine ⟨⟨[0x06], [], rfl⟩, fun f rest h => ?_⟩
  rw [State.reset_pending] at h
  cases h

theorem witness_AutoPicksTheSmallestContainer :
    (1 ≤ 8 ∧ 8 ≤ 8 ∧ 8 ≤ capacity .c8) ∧ (9 ≤ 9 ∧ 9 ≤ 16 ∧ 16 ≤ capacity .c16) ∧ (17 ≤ 17 ∧ 64 ≤ 64) ∧ 65 ≤ 65 ∧
    65 ≤ capacity .multi :=
  ⟨by decide, by decide, by decide, by decide, le_trans (by decide) Config.wmax_ge⟩

theorem witness_ConfigCreatesTheEngine : Admissible op82 ∧ Admissible opV1 := ⟨admissible_82, admissible_V1⟩

theorem witness_ConfigRefusesUnfitWidths_not_positive :
    (⟨.c64, false, false, false, 0, 0, 0, 0, 0⟩ : ConfigOperands).width.toInt ≤ 0 ∧
    (⟨.c64, false, false, false, 0x80000000, 0, 0, 0, 0⟩ : ConfigOperands).width.toInt ≤ 0 := by decide

theorem witness_ConfigRefusesUnfitWidths_capacity :
    0 < (9 : BitVec 32).toInt ∧ (capacity (resolve .c8 (9 : BitVec 32).toInt.toNat) : Int) < (9 : BitVec 32).toInt := by
  decide

theorem witness_ConfigRefusesUnfitWidths_one :
    (⟨.multi, false, false, false, 1, 0, 0, 0, 0⟩ : ConfigOperands).width.toInt = 1 := by decide

/-- Width 524281 exceeds every WMAX. -/
theorem witness_ConfigRefusesUnfitWidths_auto :
    0 < (524281 : BitVec 32).toInt ∧ ¬ Admissible ⟨.auto, false, false, false, 524281, 0, 0, 0, 0⟩ := by
  refine ⟨by decide, fun h => ?_⟩
  have h2 : 524281 ≤ Config.wmax := h.2
  have h3 := Config.wmax_le
  omega

/-- 40 R70's example: 0xE5, 0xFF, 0xFF against 0x05, 0x1F, 0x1F at width 5. -/
theorem witness_BitsAboveTheWidthHaveNoEffect :
    (∀ i : Nat, (i : Int) < opV4.width.toInt → (0xE5 : Nat).testBit i = opV4.poly.testBit i) ∧
    (∀ i : Nat, (i : Int) < opV4.width.toInt → (0xFF : Nat).testBit i = opV4.init.testBit i) ∧
    (∀ i : Nat, (i : Int) < opV4.width.toInt → (0xFF : Nat).testBit i = opV4.xorout.testBit i) := by
  have h5 : opV4.width.toInt = 5 := by decide
  refine ⟨fun i hi => ?_, fun i hi => ?_, fun i hi => ?_⟩ <;>
    (have hi' : i < 5 := by omega
     interval_cases i <;> decide)

theorem witness_GeneratedTablesAreLinear :
    (8 ≤ 8 ∧ 1 ≤ 5 ∧ 5 ≤ 8 ∧ Placed false 8 5 0x28) ∧ (8 ≤ 64 ∧ 32 ≤ 64 ∧ Placed true 64 32 0xEDB88320) := by
  decide +kernel

theorem witness_TablesAcrossContainers : 8 ≤ 8 ∧ 8 ≤ 16 ∧ 0x28 < 2 ^ 8 := by decide

theorem witness_UpdConsumesOneByte :
    State.reset.engine = none ∧
    (configured .c8 opV4 0x1F .ready).engine = some (Engine.create .c8 opV4) ∧
    (Engine.create .c8 opV4).table = none ∧ (Engine.create .c8 opV4).refin = true ∧
    (Engine.create .c8 { opV4 with refin := false }).table = none ∧
    (Engine.create .c8 opV1).table = some (Table.generate 8 0x07 false) ∧
    (Engine.create .c8 opV1).reg < 2 ^ (Engine.create .c8 opV1).cbits ∧ 8 ≤ (Engine.create .c8 opV1).cbits ∧
    (Engine.create .c8 { opV1 with refin := true }).table = some (Table.generate 8 0xE0 true) := by decide +kernel

theorem witness_TablePathEqualsBitByBitPath :
    (8 ≤ 8 ∧ 1 ≤ 5 ∧ 5 ≤ 8 ∧ Placed false 8 5 0x28 ∧ Placed false 8 5 0xF8) ∧
    (8 ≤ 16 ∧ 5 ≤ 16 ∧ Placed true 16 5 0x14 ∧ Placed true 16 5 0x1F) ∧
    (Engine.create .c8 opV1).Good ∧ Admissible opV4 := by
  refine ⟨?_, ?_, good_V1, admissible_V4⟩ <;> decide +kernel

theorem witness_ByteUpdateKeepsTheRegisterInvariant :
    (8 ≤ 16 ∧ 1 ≤ 1 ∧ 1 ≤ 16 ∧ Placed false 16 1 0x8000 ∧ Placed false 16 1 0x8000) ∧
    (8 ≤ 8 ∧ 1 ≤ 8 ∧ Placed true 8 1 0x01 ∧ Placed true 8 1 0x01) ∧ (Engine.create .c8 opV4).Good := by
  refine ⟨?_, ?_, good_V4⟩ <;> decide +kernel

/-- The whole buffer, the empty range at its end, an empty buffer, the last address. -/
theorem witness_InRange :
    InRange ⟨true, 0x100, 9, 0, 9⟩ ∧ InRange ⟨true, 0x100, 4, 4, 0⟩ ∧ InRange ⟨true, 0x100, 0, 0, 0⟩ ∧
    InRange ⟨true, 0xFFFFFFFFFFFFFFFF, 1, 0, 1⟩ := by
  decide

theorem witness_UpdbufConsumesItsRange :
    (configured .c8 opV1 0 .ready).engine = some (Engine.create .c8 opV1) ∧ InRange ⟨true, 0x100, 9, 0, 9⟩ :=
  ⟨rfl, witness_InRange.1⟩

/-- One buffer for each of the three checks, each at its bound: size 1 past the top; offset -1, length -1, sum 1 past
the size. -/
theorem witness_UpdbufChecksItsArgumentsInOrder :
    (⟨false, 0, 0, 0, -1⟩ : BufferOperands).present = false ∧
    2 ^ 64 < (0xFFFFFFFFFFFFFFFF : Addr).toNat + (2 : BitVec 32).toNat ∧
    (0xFFFFFFFFFFFFFFFF : Addr).toNat + (1 : BitVec 32).toNat ≤ 2 ^ 64 ∧
    (-1 : BitVec 32).toInt < 0 ∧
    ((4 : BitVec 32).toNat : Int) < (2 : BitVec 32).toInt + (3 : BitVec 32).toInt := by decide

theorem witness_UpdbufOfLengthZeroConsumesNothing :
    (⟨true, 0x100, 4, 4, 0⟩ : BufferOperands).length = 0 ∧ (0x100 : Addr).toNat + (4 : BitVec 32).toNat ≤ 2 ^ 64 ∧
    0 ≤ (4 : BitVec 32).toInt ∧ (4 : BitVec 32).toInt ≤ (4 : BitVec 32).toNat ∧
    (⟨false, 0, 0, 0, 0⟩ : BufferOperands).present = false ∧
    (⟨true, 5, 0, 0, 0⟩ : BufferOperands).size = 0 := by decide

/-- S9's first four bytes by a UPD, an UPDBUF and an empty UPDBUF. -/
def cutMixed : List Instr := [.upd 0x31, .updbuf ⟨true, 0x100, 9, 1, 3⟩, .updbuf ⟨true, 0x100, 9, 9, 0⟩]

/-- The same bytes by one UPDBUF. -/
def cutBulk : List Instr := [.updbuf ⟨true, 0x100, 9, 0, 4⟩]

theorem witness_BulkUpdateEqualsSingleUpdates :
    (configured .c8 opV1 0 .ready).engine = some (Engine.create .c8 opV1) ∧ InRange ⟨true, 0x100, 9, 0, 9⟩ ∧
    (∀ i ∈ cutMixed ++ cutBulk, Consumes i) ∧
    ({ configured .c8 opV1 0 .ready with pending := cutMixed.map fun i => .frame (encode i) } : State).pending =
      (cutMixed.map fun i => .frame (encode i)) ++ [] ∧
    cutMixed.flatMap (consumedBytes (configured .c8 opV1 0 .ready).mem) =
      cutBulk.flatMap (consumedBytes (configured .c8 opV1 0 .ready).mem) := by
  refine ⟨rfl, witness_InRange.1, fun i hi => ?_, by simp, by decide +kernel⟩
  simp only [cutMixed, cutBulk, List.cons_append, List.nil_append, List.mem_cons, List.not_mem_nil, or_false] at hi
  rcases hi with rfl | rfl | rfl | rfl <;> simp only [Consumes] <;> decide

theorem witness_FinAnswersTheTransformAndResets :
    State.reset.engine = none ∧ (configured .c8 opV1 0 .ready).engine = some (Engine.create .c8 opV1) := ⟨rfl, rfl⟩

theorem witness_FinValueFitsTheWidth :
    (configured .c8 opV4 0x1F .ready).engine = some (Engine.create .c8 opV4) ∧ (Engine.create .c8 opV4).Good :=
  ⟨by decide +kernel, good_V4⟩

theorem witness_FinWithoutBytesIsTheTransformOfInit :
    (Admissible opV1 ∧ opV1.refout = false) ∧ (Admissible opV4 ∧ opV4.refout = true) :=
  ⟨⟨admissible_V1, rfl⟩, ⟨admissible_V4, rfl⟩⟩

theorem witness_CrcProgramAnswersTheCrcValue :
    Admissible op82 ∧ (Instr.config op82).wellFormed = true ∧ State.reset.pending = [] :=
  ⟨admissible_82, by decide, rfl⟩

theorem witness_RefinMeansBitReversedInputBytes : Admissible opV4 := admissible_V4

theorem witness_RefoutMeansBitReversedOutput : Admissible op82 := admissible_82

/-- Width 5 on C8, C64 and MULTI. -/
theorem witness_CrcValueIsIndependentOfTheCore :
    Admissible opV4 ∧ Admissible { opV4 with core := .c64, withtable := true } ∧
    Admissible { opV4 with core := .multi, withtable := false } :=
  ⟨admissible_V4, by decide, by decide, le_trans (by decide) Config.wmax_ge⟩

theorem witness_RstLoadsInit :
    State.reset.engine = none ∧ (configured .c8 opV1 0 .ready).engine = some (Engine.create .c8 opV1) := ⟨rfl, rfl⟩

theorem witness_RstEqualsAFreshEngine :
    (configured .c8 opV1 0 .ready).engine = some (Engine.create .c8 opV1) ∧ (Engine.create .c8 opV1).Good ∧
    (Engine.create .c8 opV1).phase = .ready ∧ Admissible opV1 ∧
    (∀ f ∈ ([[0x02, 0x31], [0x04], [0x06]] : List (List Byte)), ∀ op', decode f ≠ .ok (.config op')) := by
  refine ⟨rfl, good_V1, rfl, admissible_V1, fun f hf op' h => ?_⟩
  simp only [List.mem_cons, List.not_mem_nil, or_false] at hf
  rcases hf with rfl | rfl | rfl <;> (revert h; simp [decode, decodeUpd, decodeBare])

/-- An error response, and OK to each of the five commands, with an empty and a non-empty UPDBUF. -/
theorem witness_PhaseTransitions :
    (∃ t, exec .fin State.reset = .next t ∧ t.responses = [] ++ [.error .notConfigured]) ∧
    (∃ t, exec (.config opV1) State.reset = .next t ∧ t.responses = [] ++ [.ok]) ∧
    (∃ t, exec (.upd 0x31) (configured .c8 opV4 0x1F .ready) = .next t ∧ t.responses = [] ++ [.ok]) ∧
    (∃ t, exec (.updbuf ⟨true, 0x100, 9, 0, 1⟩) (configured .c8 opV4 0x1F .ready) = .next t ∧
      t.responses = [] ++ [.ok]) ∧
    (∃ t, exec (.updbuf ⟨true, 0x100, 9, 9, 0⟩) (configured .c8 opV4 0x1F .ready) = .next t ∧
      t.responses = [] ++ [.ok]) ∧
    (∃ t, exec .fin (configured .c8 opV4 0x06 .accumulating) = .next t ∧ t.responses = [] ++ [.okValue 0x19 1]) ∧
    (∃ t, exec .rst (configured .c8 opV4 0x06 .accumulating) = .next t ∧ t.responses = [] ++ [.ok]) := by
  refine ⟨⟨_, rfl, ?_⟩, ⟨_, rfl, ?_⟩, ⟨_, rfl, ?_⟩, ⟨_, rfl, ?_⟩, ⟨_, rfl, ?_⟩, ⟨_, rfl, ?_⟩, ⟨_, rfl, ?_⟩⟩ <;>
    decide +kernel

theorem witness_OnlyHardwareResetUnconfigures :
    (State.reset.engine = none ∧ ∀ op, Instr.fin ≠ .config op) ∧
    (∃ t, (configured .c8 opV4 0x1F .ready).phase ≠ .unconfigured ∧
      step { configured .c8 opV4 0x1F .ready with pending := [.hardwareReset] } = .next t ∧
      t.phase = .unconfigured) :=
  ⟨⟨rfl, fun _ h => by cases h⟩, _, by decide +kernel, rfl, rfl⟩

theorem witness_ErrorResponsesChangeNothing :
    (∃ t, exec (.upd 0x31) State.reset = .next t ∧ t.responses = State.reset.responses ++ [.error .notConfigured]) ∧
    (∃ t, (State.reset.issue [0x06]).pending = .frame [0x06] :: [] ∧ step (State.reset.issue [0x06]) = .next t ∧
      t.responses = (State.reset.issue [0x06]).responses ++ [.error .illegalCommand]) :=
  ⟨⟨_, rfl, rfl⟩, ⟨_, rfl, rfl, rfl⟩⟩

/-- One frame for each clause of the priority. -/
theorem witness_TheFirstApplicableErrorIsAnswered :
    (State.reset.issue [0x04]).pending = .frame [0x04] :: [] ∧ IllegalFrame [0x06] ∧
    decode [0x04] = .ok .fin ∧ State.reset.engine = none ∧
    decode [0x01, 0x04, 0, 0, 0, 0, 0, 0] = .ok (.config ⟨.auto, false, false, true, 0, 0, 0, 0, 0⟩) ∧
    decode [0x01, 0x24, 0, 0, 0, 9, 0, 0] = .ok (.config ⟨.c8, false, false, true, 9, 0, 0, 0, 0⟩) ∧
    capacity (configCore ⟨.c8, false, false, true, 9, 0, 0, 0, 0⟩) <
      widthNat ⟨.c8, false, false, true, 9, 0, 0, 0, 0⟩ ∧
    decode ([0x03, 0x00] ++ List.replicate 20 0) = .ok (.updbuf ⟨false, 0, 0, 0, 0⟩) ∧
    (configured .c8 opV1 0 .ready).engine = some (Engine.create .c8 opV1) ∧
    decode ([0x03, 0x01] ++ List.replicate 8 0xFF ++ [0, 0, 0, 2] ++ List.replicate 8 0) =
      .ok (.updbuf ⟨true, 0xFFFFFFFFFFFFFFFF, 2, 0, 0⟩) ∧
    decode ([0x03, 0x01] ++ List.replicate 8 0 ++ [0, 0, 0, 4, 0, 0, 0, 5, 0, 0, 0, 0]) =
      .ok (.updbuf ⟨true, 0, 4, 5, 0⟩) :=
  ⟨by decide, by decide, by decide, rfl, by decide, by decide, by decide, by decide, rfl,
    by decide, by decide⟩

theorem witness_ResponseFramesCarryTheResponse : 0xCBF43926 < 256 ^ 4 ∧ 4 < 65536 ∧ 0 < 256 ^ 0 := by decide

theorem witness_OnlyConfigWritesTheParameterRegisters :
    ∃ t, exec .rst (configured .c8 opV4 0x06 .accumulating) = .next t ∧
      (∀ op, Instr.rst = .config op → ¬ Admissible op) ∧ ¬ Admissible ⟨.c8, false, false, false, 9, 0, 0, 0, 0⟩ :=
  ⟨_, rfl, (fun _ h => by cases h), by decide⟩

theorem witness_CommandsOnlyReadMemory :
    ∃ t, exec (.updbuf ⟨true, 0x100, 9, 0, 9⟩) (configured .c8 opV1 0 .ready) = .next t ∧
      (configured .c8 opV1 0 .ready).engine ≠ none ∧ InRange ⟨true, 0x100, 9, 0, 9⟩ ∧
      ¬ InRange ⟨true, 0x100, 9, 0, 10⟩ ∧ ∀ buf, Instr.fin ≠ .updbuf buf :=
  ⟨_, rfl, by decide +kernel, witness_InRange.1, by decide, fun _ h => by cases h⟩

/-- Two states with the same engine instance whose memories differ outside the range read. -/
theorem witness_ResponsesDependOnStateFrameAndBytesRead :
    ({ configured .c8 opV1 0 .ready with mem := [(0x100, 0x31), (0x200, 0xAA)] } : State).engine =
      (configured .c8 opV1 0 .ready).engine ∧
    ∀ k, k < (1 : BitVec 32).toInt.toNat →
      Memory.read [(0x100, 0x31), (0x200, 0xAA)] ((0x100 : Addr).toNat + (0 : BitVec 32).toInt.toNat + k) =
        Memory.read (configured .c8 opV1 0 .ready).mem ((0x100 : Addr).toNat + (0 : BitVec 32).toInt.toNat + k) := by
  refine ⟨rfl, ?_⟩
  decide +kernel

/-- A configured state that meets the invariant, and a step from it. -/
theorem witness_EveryStepKeepsTheInvariant :
    ∃ t, (({ configured .c8 opV4 0x1F .ready with pending := [.frame [0x02, 0x31]] } : State).Inv) ∧
      step { configured .c8 opV4 0x1F .ready with pending := [.frame [0x02, 0x31]] } = .next t := by
  refine ⟨_, ⟨by decide +kernel, fun e h => ?_⟩, rfl⟩
  have he : (configured .c8 opV4 0x1F .ready).engine = some (Engine.create .c8 opV4) := by decide +kernel
  exact Option.some.inj (he.symm.trans h) ▸ good_V4

theorem witness_ShardXorAndReversalAreContainerOperations :
    ([0x80, 0x01] : Shards).length = ([0xFF, 0x00] : Shards).length ∧ ([0x80] : Shards) ≠ [] ∧ 7 ≤ 7 := by decide

theorem witness_ShardShiftsAreContainerShifts : 0 ≤ 7 ∧ 7 ≤ 7 := by decide

theorem witness_ShardConfigRepresentsTheEngine : op82.wellFormed = true ∧ 0 < op82.width.toInt := by decide

/-- A shaped engine instance of two shards, forward, without table. -/
theorem witness_Shaped :
    (⟨.ready, 12, 4, [0x80, 0xF0], [0, 0], [0, 0], false, true, [0xF5, 0xB0], none⟩ : ShardEngine).Shaped where
  width_pos := by decide
  reg_length := by decide
  poly_length := by decide
  init_length := by decide
  xorout_length := by decide
  moves_eq := by decide
  table_length := fun t h => by cases h

theorem witness_ShardUpdateRepresentsTheUpdate :
    (⟨.ready, 12, 4, [0x80, 0xF0], [0, 0], [0, 0], false, true, [0xF5, 0xB0], none⟩ : ShardEngine).Shaped :=
  witness_Shaped

theorem witness_ShardFinRepresentsTheFin :
    (⟨.ready, 12, 4, [0x80, 0xF0], [0, 0], [0, 0], false, true, [0xF5, 0xB0], none⟩ : ShardEngine).Shaped :=
  witness_Shaped

theorem witness_NarrowMultiIsStateForStateC8 :
    (0 < (1 : BitVec 32).toInt ∧ (1 : BitVec 32).toInt ≤ 8) ∧ (0 < (8 : BitVec 32).toInt ∧ (8 : BitVec 32).toInt ≤ 8) := by
  decide

/-- A block on core MULTI whose registers two shards represent, at an UPD and at a CONFIG that resolves to MULTI. -/
theorem witness_MultiwordCommandsComputeOnVal :
    Represents (some ⟨.ready, 12, 4, [0x80, 0xF0], [0, 0], [0, 0], false, true, [0xF5, 0xB0], none⟩)
      (some (ShardEngine.toEngine ⟨.ready, 12, 4, [0x80, 0xF0], [0, 0], [0, 0], false, true, [0xF5, 0xB0], none⟩)) ∧
    (Instr.upd 0x31).wellFormed = true ∧ (∀ op, Instr.upd 0x31 ≠ .config op) ∧
    Represents none State.reset.engine ∧ (Instr.config op82).wellFormed = true ∧ Admissible op82 ∧
    configCore op82 = .multi :=
  ⟨⟨rfl, fun _ h => Option.some.inj h ▸ witness_Shaped⟩, by decide, (fun _ h => by cases h),
    ⟨rfl, fun _ h => by cases h⟩, by decide, admissible_82, by decide⟩

/-- Widths 5, 8 (fixed cores) and 82. -/
theorem witness_ShardFinValueIsThatOfEveryCore :
    (opV4.wellFormed = true ∧ Admissible opV4) ∧ (opV1.wellFormed = true ∧ Admissible opV1) ∧
    (op82.wellFormed = true ∧ Admissible op82) :=
  ⟨⟨by decide, admissible_V4⟩, ⟨by decide, admissible_V1⟩, by decide, admissible_82⟩

/-- 44 R126: the last byte of S9 and FIN on shards, width 82. -/
theorem test_multiExec_width82 :
    (multiExec .fin (some { (ShardEngine.create { op82 with withtable := false }).consume 0x39 with
      reg := [0x00, 0x9E, 0xA8, 0x3F, 0x62, 0x50, 0x23, 0x80, 0x1F, 0xD6, 0x12] }) []).response =
      .okValue 0x009EA83F625023801FD612 11 ∧
    ((ShardEngine.create { op82 with withtable := false }).feed [0x31, 0x32]).reg =
      [0x02, 0xB8, 0xF4, 0xBD, 0x85, 0xDB, 0xD6, 0xBE, 0xC1, 0xF7, 0x66] := by decide +kernel

end Sys2Proof.Tests
end

section
/-! PROOFS. What a frame that decodes tells (30_encoding R43, R48 to R50), and the step that serves it
(00_scope R8, 70_reset_and_hazards R153). -/

namespace Sys2Proof

/-! ## What a frame that decodes tells -/

/-- A field's value fits its bytes, also where the frame ends early (30 R48). -/
theorem beNat_field_lt (lo k : Nat) (f : List Byte) : beNat (field lo k f) < 256 ^ k :=
  calc beNat (field lo k f)
    _ < 256 ^ (field lo k f).length := beNat_lt _
    _ ≤ 256 ^ k := Nat.pow_le_pow_right (by decide) (List.length_take_le _ _)

/-- All that a CONFIG frame which decodes has passed, and the command it carries (30 R43, R50 steps 4 to 6). -/
theorem decodeConfig_ok {f : List Byte} {i : Instr} (h : decodeConfig f = .ok i) :
    (8 ≤ f.length ∧ f.length = 8 + 3 * beNat (field 6 2 f)) ∧
    (byteBit (f.getD 1 0) 1 = false ∧ byteBit (f.getD 1 0) 0 = false) ∧
    ∃ core, CoreSel.ofCode ((f.getD 1 0).extractLsb' 5 3) = some core ∧
      i = .config
        { core      := core
          refin     := byteBit (f.getD 1 0) 4
          refout    := byteBit (f.getD 1 0) 3
          withtable := byteBit (f.getD 1 0) 2
          width     := BitVec.ofNat 32 (beNat (field 2 4 f))
          nb        := BitVec.ofNat 16 (beNat (field 6 2 f))
          poly      := beNat (field 8 (beNat (field 6 2 f)) f)
          init      := beNat (field (8 + beNat (field 6 2 f)) (beNat (field 6 2 f)) f)
          xorout    := beNat (field (8 + 2 * beNat (field 6 2 f)) (beNat (field 6 2 f)) f) } := by
  unfold decodeConfig at h
  dsimp only at h
  split at h
  · cases h
  next hlen =>
    split at h
    · cases h
    next hbits =>
      split at h
      · cases h
      next core hcore =>
        cases h
        exact ⟨by omega, by simpa using hbits, core, hcore, rfl⟩

/-- Which format's decoder answers for a frame that decodes: the one its opcode selects (30 R42, R50 steps 1 to 3). -/
theorem decode_ok_cases {f : List Byte} {i : Instr} (h : decode f = .ok i) :
    (f.head? = some 0x01 ∧ decodeConfig f = .ok i) ∨
    (f.head? = some 0x02 ∧ decodeUpd f = .ok i) ∨
    (f.head? = some 0x03 ∧ decodeUpdbuf f = .ok i) ∨
    (f.head? = some 0x04 ∧ decodeBare .fin f = .ok i) ∨
    (f.head? = some 0x05 ∧ decodeBare .rst f = .ok i) := by
  cases f with
  | nil => cases h
  | cons opcode fs =>
    simp only [decode] at h
    split_ifs at h with h1 h2 h3 h4 h5
    · exact .inl ⟨by simp [h1], h⟩
    · exact .inr (.inl ⟨by simp [h2], h⟩)
    · exact .inr (.inr (.inl ⟨by simp [h3], h⟩))
    · exact .inr (.inr (.inr (.inl ⟨by simp [h4], h⟩)))
    · exact .inr (.inr (.inr (.inr ⟨by simp [h5], h⟩)))

/-- The three parameters of a CONFIG frame fit the `nb` bytes that carry them: `nb` is a two-byte field, so its
operand keeps its value. -/
theorem decodeConfig_wellFormed {f : List Byte} {i : Instr} (h : decodeConfig f = .ok i) : i.wellFormed = true := by
  obtain ⟨-, -, core, -, rfl⟩ := decodeConfig_ok h
  have hnb : beNat (field 6 2 f) % 2 ^ 16 = beNat (field 6 2 f) := Nat.mod_eq_of_lt (beNat_field_lt 6 2 f)
  simp only [Instr.wellFormed, ConfigOperands.wellFormed, ConfigOperands.fieldBound, BitVec.toNat_ofNat, hnb,
    beNat_field_lt, decide_true, Bool.and_self]

theorem decodeUpd_ok {f : List Byte} {i : Instr} (h : decodeUpd f = .ok i) :
    f.length = 2 ∧ i = .upd (f.getD 1 0) := by
  unfold decodeUpd at h
  split at h
  · cases h
  next hlen => cases h; exact ⟨not_not.mp hlen, rfl⟩

theorem decodeUpdbuf_ok {f : List Byte} {i : Instr} (h : decodeUpdbuf f = .ok i) :
    f.length = 22 ∧ (f.getD 1 0).extractLsb' 1 7 = 0 ∧
    i = .updbuf
      { present := byteBit (f.getD 1 0) 0
        base    := BitVec.ofNat 64 (beNat (field 2 8 f))
        size    := BitVec.ofNat 32 (beNat (field 10 4 f))
        offset  := BitVec.ofNat 32 (beNat (field 14 4 f))
        length  := BitVec.ofNat 32 (beNat (field 18 4 f)) } := by
  unfold decodeUpdbuf at h
  dsimp only at h
  split at h
  · cases h
  next hlen =>
    split at h
    · cases h
    next hbits => cases h; exact ⟨not_not.mp hlen, not_not.mp hbits, rfl⟩

theorem decodeBare_ok {f : List Byte} {i j : Instr} (h : decodeBare i f = .ok j) : f.length = 1 ∧ j = i := by
  unfold decodeBare at h
  split at h
  · cases h
  next hlen => cases h; exact ⟨not_not.mp hlen, rfl⟩

/-- Only CONFIG can be ill-formed, and its frame bounds its operands (30 R43, R48). -/
theorem decode_wellFormed {f : List Byte} {i : Instr} (h : decode f = .ok i) : i.wellFormed = true := by
  obtain ⟨-, hc⟩ | ⟨-, hu⟩ | ⟨-, hb⟩ | ⟨-, hf⟩ | ⟨-, hr⟩ := decode_ok_cases h
  · exact decodeConfig_wellFormed hc
  · obtain ⟨-, rfl⟩ := decodeUpd_ok hu; rfl
  · obtain ⟨-, -, rfl⟩ := decodeUpdbuf_ok hb; rfl
  · obtain ⟨-, rfl⟩ := decodeBare_ok hf; rfl
  · obtain ⟨-, rfl⟩ := decodeBare_ok hr; rfl

/-! ## The step that serves it -/

namespace Machine

/-- The frame leaves the pending events and its command is executed (00 R8, 70 R153). -/
theorem step_decoded (s : State) (f : List Byte) (rest : List HostEvent) (i : Instr)
    (h : s.pending = .frame f :: rest) (hd : decode f = .ok i) :
    step s = exec i { s with pending := rest } := by
  simp [step, State.takeEvent, h, hd]

/-- Settles O9: a frame that decodes carries a well-formed command, and serving it is that command's execution. -/
theorem stepRunsTheDecodedCommand : Obligations.StepRunsTheDecodedCommand :=
  fun s f rest i hp hd => ⟨decode_wellFormed hd, step_decoded s f rest i hp hd⟩

end Machine

end Sys2Proof
end

section
/-! PROOFS. The register invariant (10_state R26): XOR, alignment and the byte update keep it (40 R65,
42_update R102). -/

namespace Sys2Proof.Machine

/-! ## The two orientations -/

theorem placed_forward_iff {C w v : Nat} : Placed false C w v ↔ v < 2 ^ C ∧ 2 ^ (C - w) ∣ v := by
  simp [Nat.dvd_iff_mod_eq_zero]

theorem placed_reflected_iff {C w v : Nat} : Placed true C w v ↔ v < 2 ^ w := by simp

theorem placed_zero (refin : Bool) (C w : Nat) : Placed refin C w 0 := by
  cases refin with
  | false => exact placed_forward_iff.2 ⟨Nat.two_pow_pos C, dvd_zero _⟩
  | true => exact placed_reflected_iff.2 (Nat.two_pow_pos w)

theorem two_pow_dvd_xor {n a b : Nat} (ha : 2 ^ n ∣ a) (hb : 2 ^ n ∣ b) : 2 ^ n ∣ a ^^^ b := by
  rw [Nat.dvd_iff_mod_eq_zero] at *
  rw [Nat.xor_mod_two_pow, ha, hb, Nat.xor_self]

theorem placed_xor {refin : Bool} {C w a b : Nat} (ha : Placed refin C w a) (hb : Placed refin C w b) :
    Placed refin C w (a ^^^ b) := by
  cases refin with
  | false =>
    rw [placed_forward_iff] at *
    exact ⟨Nat.xor_lt_two_pow ha.1 hb.1, two_pow_dvd_xor ha.2 hb.2⟩
  | true =>
    rw [placed_reflected_iff] at *
    exact Nat.xor_lt_two_pow ha hb

/-! ## Alignment -/

theorem trunc_lt (w v : Nat) : trunc w v < 2 ^ w := Nat.mod_lt _ (Nat.two_pow_pos w)

theorem rev_lt (n v : Nat) : rev n v < 2 ^ n := by
  induction n generalizing v with
  | zero => exact Nat.one_pos
  | succ n ih =>
    have hlow : rev n (v / 2) < 2 ^ n := ih (v / 2)
    have htop : (v % 2) * 2 ^ n ≤ 1 * 2 ^ n := Nat.mul_le_mul_right _ (by omega)
    rw [rev, pow_succ]
    omega

theorem placed_align {C w : Nat} (hw : w ≤ C) (refin : Bool) (v : Nat) : Placed refin C w (align C w refin v) := by
  cases refin with
  | false =>
    rw [placed_forward_iff, align, Nat.shiftLeft_eq]
    refine ⟨?_, dvd_mul_left _ _⟩
    calc trunc w v * 2 ^ (C - w)
      _ < 2 ^ w * 2 ^ (C - w) := Nat.mul_lt_mul_of_pos_right (trunc_lt w v) (Nat.two_pow_pos _)
      _ = 2 ^ C := by rw [← pow_add, Nat.add_sub_cancel' hw]
  | true => exact placed_reflected_iff.2 (rev_lt w _)

/-! ## Forward rounds

The byte may set bits below the lowest significant one when w < 8. A round moves every bit one place up, so the eighth
round has moved the last of them into place: after k rounds the low min(m, C - 8 + k) bits are zero. -/

theorem shl1_lt (C v : Nat) : shl1 C v < 2 ^ C := Nat.mod_lt _ (Nat.two_pow_pos C)

theorem roundFwd_lt {C poly : Nat} (t : Nat) (hp : poly < 2 ^ C) : roundFwd C poly t < 2 ^ C := by
  unfold roundFwd
  split
  · exact Nat.xor_lt_two_pow (shl1_lt C t) hp
  · exact shl1_lt C t

theorem two_pow_dvd_shl1 {C n t : Nat} (hn : n + 1 ≤ C) (ht : 2 ^ n ∣ t) : 2 ^ (n + 1) ∣ shl1 C t := by
  rw [shl1, Nat.shiftLeft_eq, Nat.dvd_mod_iff (Nat.pow_dvd_pow 2 hn), pow_succ]
  exact Nat.mul_dvd_mul_right ht 2

theorem two_pow_dvd_roundFwd {C m n poly t : Nat} (hm : m ≤ C) (hp : 2 ^ m ∣ poly) (ht : 2 ^ min m n ∣ t) :
    2 ^ min m (n + 1) ∣ roundFwd C poly t := by
  have hshift : 2 ^ min m (n + 1) ∣ shl1 C t := by
    cases hk : min m (n + 1) with
    | zero => exact one_dvd _
    | succ k => exact two_pow_dvd_shl1 (by omega) ((Nat.pow_dvd_pow 2 (by omega)).trans ht)
  have hpoly : 2 ^ min m (n + 1) ∣ poly := (Nat.pow_dvd_pow 2 (min_le_left _ _)).trans hp
  unfold roundFwd
  split
  · exact two_pow_dvd_xor hshift hpoly
  · exact hshift

theorem two_pow_dvd_iterate_roundFwd {C m n poly t : Nat} (k : Nat) (hm : m ≤ C) (hp : 2 ^ m ∣ poly)
    (ht : 2 ^ min m n ∣ t) : 2 ^ min m (n + k) ∣ (roundFwd C poly)^[k] t := by
  induction k with
  | zero => exact ht
  | succ k ih =>
    rw [Function.iterate_succ_apply']
    exact two_pow_dvd_roundFwd hm hp ih

theorem placed_bitwiseFwd {C w poly r : Nat} (hC : 8 ≤ C) (hp : Placed false C w poly) (hr : Placed false C w r)
    (b : Byte) : Placed false C w (bitwiseFwd C poly r b) := by
  rw [placed_forward_iff] at *
  refine ⟨?_, ?_⟩
  · exact (Function.iterate_succ_apply' (roundFwd C poly) 7 _).trans_lt (roundFwd_lt _ hp.1)
  · have hbyte : 2 ^ (C - 8) ∣ msbyte C b := by
      rw [msbyte, Nat.shiftLeft_eq]
      exact dvd_mul_left _ _
    have hstart : 2 ^ min (C - w) (C - 8) ∣ r ^^^ msbyte C b :=
      two_pow_dvd_xor ((Nat.pow_dvd_pow 2 (min_le_left _ _)).trans hr.2)
        ((Nat.pow_dvd_pow 2 (min_le_right _ _)).trans hbyte)
    have hend := two_pow_dvd_iterate_roundFwd 8 (Nat.sub_le C w) hp.2 hstart
    rwa [Nat.sub_add_cancel hC, min_eq_left (Nat.sub_le C w)] at hend

/-! ## Reflected rounds

The mirror image: k rounds before the end the value is below 2^max(w, k). -/

theorem roundRef_lt {w n poly t : Nat} (hp : poly < 2 ^ w) (ht : t < 2 ^ max w (n + 1)) :
    roundRef poly t < 2 ^ max w n := by
  have hshift : shr1 t < 2 ^ max w n := by
    refine Nat.div_lt_of_lt_mul (ht.trans_le ?_)
    rw [mul_comm, ← pow_succ]
    exact Nat.pow_le_pow_right (by decide) (by omega)
  have hpoly : poly < 2 ^ max w n := hp.trans_le (Nat.pow_le_pow_right (by decide) (le_max_left _ _))
  unfold roundRef
  split
  · exact Nat.xor_lt_two_pow hshift hpoly
  · exact hshift

theorem iterate_roundRef_lt {w poly t : Nat} (k : Nat) (hp : poly < 2 ^ w) (ht : t < 2 ^ max w k) :
    (roundRef poly)^[k] t < 2 ^ w := by
  induction k generalizing t with
  | zero => rwa [Nat.max_zero] at ht
  | succ k ih => exact ih (roundRef_lt hp ht)

theorem placed_bitwiseRef {C w poly r : Nat} (hp : Placed true C w poly) (hr : Placed true C w r) (b : Byte) :
    Placed true C w (bitwiseRef poly r b) := by
  rw [placed_reflected_iff] at *
  have hreg : r < 2 ^ max w 8 := hr.trans_le (Nat.pow_le_pow_right (by decide) (le_max_left _ _))
  have hbyte : lsbyte b < 2 ^ max w 8 := b.isLt.trans_le (Nat.pow_le_pow_right (by decide) (le_max_right _ _))
  exact iterate_roundRef_lt 8 hp (Nat.xor_lt_two_pow hreg hbyte)

/-! ## The table path -/

/-- A forward entry is the byte update of a zero register (41 R84). -/
theorem entry_forward_eq_bitwiseFwd (C poly : Nat) (b : Byte) : entry C poly false b = bitwiseFwd C poly 0 b := by
  rw [bitwiseFwd, Nat.zero_xor]
  rfl

/-- A reflected entry is the byte update of a zero register (41 R84). -/
theorem entry_reflected_eq_bitwiseRef (C poly : Nat) (b : Byte) : entry C poly true b = bitwiseRef poly 0 b := by
  rw [bitwiseRef, Nat.zero_xor]
  rfl

theorem placed_lookup_generate {C w poly : Nat} {refin : Bool} (hC : 8 ≤ C) (hp : Placed refin C w poly) (b : Byte) :
    Placed refin C w ((Table.generate C poly refin).lookup b) := by
  rw [Table.lookup_generate]
  cases refin with
  | false =>
    rw [entry_forward_eq_bitwiseFwd]
    exact placed_bitwiseFwd hC hp (placed_zero false C w) b
  | true =>
    rw [entry_reflected_eq_bitwiseRef]
    exact placed_bitwiseRef hp (placed_zero true C w) b

theorem placed_tableFwd {C w poly r : Nat} (hC : 8 ≤ C) (hp : Placed false C w poly) (hr : Placed false C w r)
    (b : Byte) : Placed false C w (tableFwd C (Table.generate C poly false) r b) := by
  refine placed_xor ?_ (placed_lookup_generate hC hp _)
  rw [placed_forward_iff] at *
  refine ⟨Nat.mod_lt _ (Nat.two_pow_pos C), ?_⟩
  rw [Nat.dvd_mod_iff (Nat.pow_dvd_pow 2 (Nat.sub_le C w)), Nat.shiftLeft_eq]
  exact hr.2.mul_right _

theorem placed_tableRef {C w poly r : Nat} (hC : 8 ≤ C) (hp : Placed true C w poly) (hr : Placed true C w r)
    (b : Byte) : Placed true C w (tableRef (Table.generate C poly true) r b) := by
  refine placed_xor ?_ (placed_lookup_generate hC hp _)
  rw [placed_reflected_iff] at *
  exact (Nat.shiftRight_le r 8).trans_lt hr

end Sys2Proof.Machine
end

section
/-! PROOFS. A good engine: CONFIG creates one, and every operation on it keeps it good (10_state R11 to R18,
R26, 41_configure_and_table R85). -/

namespace Sys2Proof.Machine

/-! ## The container -/

/-- Every core's container holds the widths the core accepts (41 R78, R79). -/
theorem le_cbitsOf {c : Core} {w : Nat} (h : w ≤ capacity c) : w ≤ cbitsOf c w := by
  cases c with
  | c8 => exact h
  | c16 => exact h
  | c64 => exact h
  | multi =>
    simp only [cbitsOf, shardCount, Config.shardBits]
    omega

theorem eight_le_cbitsOf {c : Core} {w : Nat} (h : 1 ≤ w) : 8 ≤ cbitsOf c w := by
  cases c with
  | c8 => exact le_refl 8
  | c16 => exact show 8 ≤ 16 by decide
  | c64 => exact show 8 ≤ 64 by decide
  | multi =>
    simp only [cbitsOf, shardCount, Config.shardBits]
    omega

theorem Engine.Good.eight_le_cbits {e : Engine} (h : e.Good) : 8 ≤ e.cbits :=
  h.cbits_eq ▸ eight_le_cbitsOf h.width_pos

/-! ## Creation -/

theorem Engine.good_create {op : ConfigOperands} (h : Admissible op) : (Engine.create (configCore op) op).Good := by
  obtain ⟨hpos, hcap⟩ := h
  have hw : widthNat op ≤ cbitsOf (configCore op) (widthNat op) := le_cbitsOf hcap
  exact
    { width_pos := show 0 < op.width.toInt.toNat by omega
      width_le := hcap
      cbits_eq := rfl
      moves_eq := rfl
      poly_placed := placed_align hw op.refin op.poly
      init_placed := placed_align hw op.refin op.init
      xorout_lt := trunc_lt _ _
      reg_placed := placed_align hw op.refin op.init
      table_eq := fun t ht => by
        rw [Engine.create_table, Option.ite_none_right_eq_some, Option.some_inj] at ht
        exact ht.2.symm
      ready_reg := fun _ => rfl }

/-! ## Consuming bytes -/

/-- 42 R102 in each of the four forms of the byte update. -/
theorem Engine.Good.placed_updateByte {e : Engine} (h : e.Good) {r : Nat} (hr : Placed e.refin e.cbits e.width r)
    (b : Byte) : Placed e.refin e.cbits e.width (e.updateByte r b) := by
  have hC := h.eight_le_cbits
  have hp := h.poly_placed
  have htable := h.table_eq
  unfold Engine.updateByte
  cases hrefin : e.refin with
  | false =>
    rw [hrefin] at hp hr htable
    cases ht : e.table with
    | none => exact placed_bitwiseFwd hC hp hr b
    | some t =>
      rw [htable t ht]
      exact placed_tableFwd hC hp hr b
  | true =>
    rw [hrefin] at hp hr htable
    cases ht : e.table with
    | none => exact placed_bitwiseRef hp hr b
    | some t =>
      rw [htable t ht]
      exact placed_tableRef hC hp hr b

theorem Engine.Good.consume {e : Engine} (h : e.Good) (b : Byte) : (e.consume b).Good :=
  { h with
    reg_placed := h.placed_updateByte h.reg_placed b
    ready_reg := fun hready => by cases hready }

theorem Engine.Good.feed {e : Engine} (h : e.Good) (bs : List Byte) : (e.feed bs).Good := by
  induction bs generalizing e with
  | nil => exact h
  | cons b bs ih => exact ih (h.consume b)

/-! ## Rewinding -/

theorem Engine.Good.rewind {e : Engine} (h : e.Good) : e.rewind.Good :=
  { h with
    reg_placed := h.init_placed
    ready_reg := fun _ => rfl }

end Sys2Proof.Machine
end

section
/-! PROOFS. All a command can do, with its guards, and what follows for every command: the invariant of the machine, the
parameter registers and the phase (10_state R11, R23, R26). -/

namespace Sys2Proof.Machine

/-! ## All a command can do -/

theorem execConfig_refused (op : ConfigOperands) (s : State) {err : CommandError} (h : configError op = some err) :
    execConfig op s = raise err s := by
  simp [execConfig, h]

theorem execUpdbuf_refused (buf : BufferOperands) (s : State) {e : Engine} {err : CommandError}
    (he : s.engine = some e) (h : bufferError buf = some err) : execUpdbuf buf s = raise err s := by
  simp [execUpdbuf, withEngine_some s _ e he, h]

/-- A command is refused with one of its errors, creates an engine, feeds bytes to the one that exists, or rewinds it. -/
theorem exec_inversion (i : Instr) (s : State) :
    (∃ err, CanAnswer i (.error err) ∧ exec i s = raise err s) ∨
    (∃ op, i = .config op ∧ Admissible op ∧
      exec i s = answer .ok (s.setEngine (Engine.create (configCore op) op))) ∨
    (∃ e, s.engine = some e ∧ Consumes i ∧
      exec i s = .next { s with engine := some (e.feed (consumedBytes s.mem i))
                                responses := s.responses ++ [.ok], reads := s.reads ++ consumedAddrs i }) ∨
    (∃ e, s.engine = some e ∧ i = .fin ∧
      exec i s = answer (.okValue e.finValue e.nbytes) (s.setEngine e.rewind)) ∨
    (∃ e, s.engine = some e ∧ i = .rst ∧ exec i s = answer .ok (s.setEngine e.rewind)) := by
  cases i with
  | config op =>
    rcases configError_cases op with hc | hc
    · have hadm := (configError_eq_none_iff op).1 hc
      exact .inr (.inl ⟨op, rfl, hadm, execConfig_admissible op s hadm⟩)
    · exact .inl ⟨.invalidArgument .width, trivial, execConfig_refused op s hc⟩
  | upd b =>
    cases he : s.engine with
    | none => exact .inl ⟨.notConfigured, trivial, withEngine_none s _ he⟩
    | some e => exact .inr (.inr (.inl ⟨e, rfl, trivial, exec_consumes (.upd b) s e he trivial⟩))
  | updbuf buf =>
    cases he : s.engine with
    | none => exact .inl ⟨.notConfigured, trivial, withEngine_none s _ he⟩
    | some e =>
      rcases bufferError_cases buf with hb | hb | hb
      · have hrange : Consumes (.updbuf buf) := (bufferError_eq_none_iff buf).1 hb
        exact .inr (.inr (.inl ⟨e, rfl, hrange, exec_consumes _ s e he hrange⟩))
      · exact .inl ⟨.invalidArgument .buffer, trivial, execUpdbuf_refused buf s he hb⟩
      · exact .inl ⟨.invalidArgument .range, trivial, execUpdbuf_refused buf s he hb⟩
  | fin =>
    cases he : s.engine with
    | none => exact .inl ⟨.notConfigured, trivial, withEngine_none s _ he⟩
    | some e => exact .inr (.inr (.inr (.inl ⟨e, rfl, rfl, withEngine_some s _ e he⟩)))
  | rst =>
    cases he : s.engine with
    | none => exact .inl ⟨.notConfigured, trivial, withEngine_none s _ he⟩
    | some e => exact .inr (.inr (.inr (.inr ⟨e, rfl, rfl, withEngine_some s _ e he⟩)))

/-! ## The invariant -/

theorem State.Inv.of_same_engine {s t : State} (h : s.Inv) (hm : t.mem = s.mem) (he : t.engine = s.engine) : t.Inv :=
  ⟨hm ▸ h.mem_wf, fun e hte => h.engine_good e (he ▸ hte)⟩

theorem State.Inv.of_good_engine {s t : State} {e : Engine} (h : s.Inv) (hm : t.mem = s.mem)
    (he : t.engine = some e) (hgood : e.Good) : t.Inv :=
  ⟨hm ▸ h.mem_wf, fun _ hte => Option.some.inj (he.symm.trans hte) ▸ hgood⟩

theorem exec_keeps_inv {i : Instr} {s t : State} (hs : s.Inv) (h : exec i s = .next t) : t.Inv := by
  obtain ⟨err, -, hx⟩ | ⟨op, -, hadm, hx⟩ | ⟨e, he, -, hx⟩ | ⟨e, he, -, hx⟩ | ⟨e, he, -, hx⟩ :=
    exec_inversion i s <;> cases hx.symm.trans h
  · exact hs.of_same_engine rfl rfl
  · exact hs.of_good_engine rfl rfl (Engine.good_create hadm)
  · exact hs.of_good_engine rfl rfl ((hs.engine_good e he).feed _)
  · exact hs.of_good_engine rfl rfl (hs.engine_good e he).rewind
  · exact hs.of_good_engine rfl rfl (hs.engine_good e he).rewind

/-- Settles O45: a command keeps the engine good and memory as it is; of the other steps only the host's write
touches memory, and it keeps the canonical form. -/
theorem everyStepKeepsTheInvariant : Obligations.EveryStepKeepsTheInvariant := by
  intro s t hs h
  obtain ⟨-, hx⟩ | ⟨f, rest, i, -, -, hx⟩ | ⟨f, rest, err, -, -, hx⟩ | ⟨a, v, rest, -, hx⟩ | ⟨rest, -, hx⟩ :=
    step_cases s
  · cases hx.symm.trans h
    exact hs
  · have hs' : State.Inv { s with pending := rest } := hs.of_same_engine rfl rfl
    exact exec_keeps_inv hs' (hx.symm.trans h)
  · cases hx.symm.trans h
    exact hs.of_same_engine rfl rfl
  · cases hx.symm.trans h
    exact ⟨Memory.wf_write s.mem a v hs.mem_wf, hs.engine_good⟩
  · cases hx.symm.trans h
    exact ⟨hs.mem_wf, fun e he => by cases he⟩

/-! ## The parameter registers -/

/-- Settles O42: without a successful CONFIG a command keeps the engine, feeds it or rewinds it. -/
theorem onlyConfigWritesTheParameterRegisters : Obligations.OnlyConfigWritesTheParameterRegisters := by
  intro s t i h hno
  obtain ⟨err, -, hx⟩ | ⟨op, hi, hadm, -⟩ | ⟨e, he, -, hx⟩ | ⟨e, he, -, hx⟩ | ⟨e, he, -, hx⟩ := exec_inversion i s
  · cases hx.symm.trans h
    exact ⟨fun e he => ⟨e.reg, e.phase, he⟩, id⟩
  · exact absurd hadm (hno op hi)
  all_goals
    cases hx.symm.trans h
    rw [he]
    refine ⟨?_, fun hnone => by cases hnone⟩
    rintro _ ⟨⟩
  · obtain ⟨r, p, hfeed⟩ := e.feed_frame (consumedBytes s.mem i)
    exact ⟨r, p, congrArg some hfeed⟩
  · exact ⟨e.init, .ready, rfl⟩
  · exact ⟨e.init, .ready, rfl⟩

/-! ## The phase -/

theorem State.phase_congr {s t : State} (h : t.engine = s.engine) : t.phase = s.phase := by
  simp only [State.phase, h]

theorem State.phase_eq_unconfigured_iff {s : State} : s.phase = .unconfigured ↔ s.engine = none := by
  unfold State.phase
  cases s.engine with
  | none => simp
  | some e => cases hp : e.phase <;> simp [hp]

theorem State.phase_eq_ready_iff {s : State} : s.phase = .ready ↔ ∃ e, s.engine = some e ∧ e.phase = .ready := by
  unfold State.phase
  cases s.engine with
  | none => simp
  | some e => cases hp : e.phase <;> simp [hp]

theorem State.phase_eq_accumulating_iff {s : State} :
    s.phase = .accumulating ↔ ∃ e, s.engine = some e ∧ e.phase = .accumulating := by
  unfold State.phase
  cases s.engine with
  | none => simp
  | some e => cases hp : e.phase <;> simp [hp]

theorem Engine.feed_phase {e : Engine} {bs : List Byte} (h : bs ≠ []) : (e.feed bs).phase = .accumulating := by
  rw [← List.dropLast_append_getLast h, Engine.feed_append, Engine.feed_cons, Engine.feed_nil, Engine.consume_phase]

/-- An UPDBUF feeds as many bytes as its `length` operand says (42 R96), so it leaves the engine as it is for length 0 (R99). -/
theorem feed_consumedBytes_updbuf (e : Engine) (m : Memory) (buf : BufferOperands) :
    (1 ≤ buf.length.toInt → (e.feed (consumedBytes m (.updbuf buf))).phase = .accumulating) ∧
    (buf.length.toInt = 0 → e.feed (consumedBytes m (.updbuf buf)) = e) := by
  have hlen : (consumedBytes m (.updbuf buf)).length = buf.length.toInt.toNat := Memory.bytes_length m _ _
  refine ⟨fun hpos => Engine.feed_phase (List.ne_nil_of_length_pos (by omega)), fun hzero => ?_⟩
  rw [List.length_eq_zero_iff.1 (by omega : (consumedBytes m (.updbuf buf)).length = 0), Engine.feed_nil]

/-- Settles O36: the row of the table that the outcome of the command belongs to. -/
theorem phaseTransitions : Obligations.PhaseTransitions := by
  intro s t i r h hr
  obtain ⟨err, -, hx⟩ | ⟨op, rfl, -, hx⟩ | ⟨e, he, hcons, hx⟩ | ⟨e, he, rfl, hx⟩ | ⟨e, he, rfl, hx⟩ :=
    exec_inversion i s <;> cases hx.symm.trans h <;> cases List.append_cancel_left hr
  · exact ⟨fun _ => State.phase_congr rfl, fun hok => absurd rfl (hok err)⟩
  all_goals refine ⟨fun herr => by simp at herr, fun _ => ?_⟩
  · simp [State.phase_eq_ready_iff]
  · cases i with
    | upd b => simp [State.phase_eq_unconfigured_iff, State.phase_eq_accumulating_iff, he, consumedBytes]
    | updbuf buf =>
      obtain ⟨hpos, hzero⟩ := feed_consumedBytes_updbuf e s.mem buf
      have hne : s.phase ≠ .unconfigured := by simp [State.phase_eq_unconfigured_iff, he]
      simpa [State.phase_eq_accumulating_iff, hne] using
        ⟨hpos, fun h0 => State.phase_congr (by simp [hzero h0, he])⟩
    | _ => exact hcons.elim
  · simp [State.phase_eq_unconfigured_iff, State.phase_eq_ready_iff, he]
  · simp [State.phase_eq_unconfigured_iff, State.phase_eq_ready_iff, he]

end Sys2Proof.Machine
end

section
/-! PROOFS. What a command does to the host's side of the state: memory, the pending events and the log of addresses
read (20_memory R30, R34, 10_state R29). -/

namespace Sys2Proof.Machine

/-- Memory and the pending events stay; addresses are read only by a command that consumes bytes in a configured block
(20 R30, R34). -/
theorem exec_memory_frame {i : Instr} {s t : State} (h : exec i s = .next t) :
    t.mem = s.mem ∧ t.pending = s.pending ∧
      (t.reads = s.reads ∨ s.engine ≠ none ∧ Consumes i ∧ t.reads = s.reads ++ consumedAddrs i) := by
  obtain ⟨err, -, hx⟩ | ⟨op, -, -, hx⟩ | ⟨e, he, hcons, hx⟩ | ⟨e, -, -, hx⟩ | ⟨e, -, -, hx⟩ :=
    exec_inversion i s <;> cases hx.symm.trans h
  · exact ⟨rfl, rfl, .inl rfl⟩
  · exact ⟨rfl, rfl, .inl rfl⟩
  · exact ⟨rfl, rfl, .inr ⟨by simp [he], hcons, rfl⟩⟩
  · exact ⟨rfl, rfl, .inl rfl⟩
  · exact ⟨rfl, rfl, .inl rfl⟩

/-- A command that consumes bytes in a configured block is never refused, so it reads all its addresses (20 R34). -/
theorem exec_reads_of_consumes {i : Instr} {s t : State} (h : exec i s = .next t) (he : s.engine ≠ none)
    (hcons : Consumes i) : t.reads = s.reads ++ consumedAddrs i := by
  obtain ⟨e, he⟩ := Option.ne_none_iff_exists'.1 he
  cases (exec_consumes i s e he hcons).symm.trans h
  rfl

theorem consumedAddrs_eq_nil {i : Instr} (h : ∀ buf, i ≠ .updbuf buf) : consumedAddrs i = [] := by
  cases i with
  | updbuf buf => exact absurd rfl (h buf)
  | _ => rfl

/-- Settles O43: an UPDBUF consumes bytes exactly when it is in range, and of the other commands the one that consumes a
byte, UPD, has no address to read. -/
theorem commandsOnlyReadMemory : Obligations.CommandsOnlyReadMemory := by
  intro s t i h
  obtain ⟨hmem, hpending, hreads⟩ := exec_memory_frame h
  refine ⟨⟨hmem, fun a => by rw [hmem]⟩, hpending, ?_, ?_, fun hno => ?_⟩
  · rintro buf rfl he hrange
    exact exec_reads_of_consumes h he hrange
  · rintro buf rfl hrefused
    obtain hreads | ⟨he, hrange, -⟩ := hreads
    · exact hreads
    · exact (hrefused.elim he (· hrange)).elim
  · obtain hreads | ⟨-, -, hreads⟩ := hreads
    · exact hreads
    · rw [hreads, consumedAddrs_eq_nil hno, List.append_nil]

end Sys2Proof.Machine
end

section
/-! PROOFS. Decoding and encoding agree (30_encoding R41 to R50, R56): the fields of a frame, the flag bytes bit by bit,
and the two directions. -/

namespace Sys2Proof

/-! ## Fields of a frame -/

theorem length_field {lo k : Nat} {f : List Byte} (h : lo + k ≤ f.length) : (field lo k f).length = k := by
  simp only [field, List.length_take, List.length_drop]
  omega

/-- Two neighbouring fields are one longer field. -/
theorem field_append_field {lo j m k : Nat} (f : List Byte) (h : m = lo + j) :
    field lo j f ++ field m k f = field lo (j + k) f := by
  simp [field, h, List.take_add]

theorem field_zero_eq_self {k : Nat} {f : List Byte} (h : k = f.length) : field 0 k f = f := by simp [field, h]

/-- The first two bytes of a frame with operands are its opcode and byte 1. -/
theorem field_zero_two {f : List Byte} {opcode : Byte} (hop : f.head? = some opcode) (hlen : 2 ≤ f.length) :
    field 0 2 f = [opcode, f.getD 1 0] := by
  match f, hlen with
  | a :: b :: fs, _ => cases hop; rfl

theorem field_cons {lo k : Nat} (b : Byte) (f : List Byte) (h : 1 ≤ lo) : field lo k (b :: f) = field (lo - 1) k f := by
  cases lo with
  | zero => omega
  | succ lo => rfl

/-- A field past the bytes of an operand. -/
theorem field_beBytes_append {lo j k : Nat} (v : Nat) (f : List Byte) (h : j ≤ lo) :
    field lo k (beBytes j v ++ f) = field (lo - j) k f := by
  simp [field, List.drop_append, List.drop_eq_nil_of_le, h]

/-- The field where the bytes of an operand begin. -/
theorem field_beBytes_append_self {lo k : Nat} (v : Nat) (f : List Byte) (h : lo = 0) :
    field lo k (beBytes k v ++ f) = beBytes k v := by
  simp [field, h]

theorem field_beBytes_self {lo k : Nat} (v : Nat) (h : lo = 0) : field lo k (beBytes k v) = beBytes k v := by
  simp [field, h]

/-! ## Operands and the bytes that carry them (30 R48) -/

theorem beNat_beBytes_of_lt {k v : Nat} (h : v < 256 ^ k) : beNat (beBytes k v) = v := by
  rw [beNat_beBytes, Nat.mod_eq_of_lt h]

theorem beNat_beBytes_toNat {n k : Nat} (h : 2 ^ n ≤ 256 ^ k) (x : BitVec n) : beNat (beBytes k x.toNat) = x.toNat :=
  beNat_beBytes_of_lt (x.isLt.trans_le h)

theorem beBytes_beNat_field {lo k : Nat} {f : List Byte} (h : lo + k ≤ f.length) :
    beBytes k (beNat (field lo k f)) = field lo k f := by
  simpa only [length_field h] using beBytes_beNat (field lo k f)

theorem toNat_ofNat_beNat_field {n k : Nat} (lo : Nat) (f : List Byte) (h : 256 ^ k ≤ 2 ^ n) :
    (BitVec.ofNat n (beNat (field lo k f))).toNat = beNat (field lo k f) := by
  rw [BitVec.toNat_ofNat, Nat.mod_eq_of_lt ((beNat_field_lt lo k f).trans_le h)]

theorem beBytes_ofNat_field {n lo k : Nat} {f : List Byte} (hn : 256 ^ k ≤ 2 ^ n) (h : lo + k ≤ f.length) :
    beBytes k (BitVec.ofNat n (beNat (field lo k f))).toNat = field lo k f := by
  rw [toNat_ofNat_beNat_field lo f hn, beBytes_beNat_field h]

theorem ConfigOperands.wellFormed_iff (op : ConfigOperands) :
    op.wellFormed = true ↔
      op.poly < 256 ^ op.nb.toNat ∧ op.init < 256 ^ op.nb.toNat ∧ op.xorout < 256 ^ op.nb.toNat := by
  simp only [wellFormed, Bool.and_eq_true, decide_eq_true_eq, and_assoc]
  rfl

/-! ## The flag bytes -/

theorem CoreSel.ofCode_eq_some_iff {c : BitVec 3} {core : CoreSel} : CoreSel.ofCode c = some core ↔ core.code = c := by
  constructor
  · intro h
    unfold CoreSel.ofCode at h
    split_ifs at h <;> cases h <;> symm <;> assumption
  · rintro rfl
    cases core <;> rfl

/-- Byte 1 of a CONFIG frame, bit by bit (30 R43). -/
theorem ConfigOperands.byteBit_flagByte (op : ConfigOperands) (i : Nat) :
    byteBit op.flagByte i =
      if i < 2 then false else if i = 2 then op.withtable else if i = 3 then op.refout
      else if i = 4 then op.refin else op.core.code.getLsbD (i - 5) := by
  unfold byteBit flagByte
  simp only [BitVec.getLsbD_append, BitVec.getLsbD_ofBool]
  grind

theorem ConfigOperands.extractLsb'_flagByte (op : ConfigOperands) : op.flagByte.extractLsb' 5 3 = op.core.code := by
  apply BitVec.eq_of_getLsbD_eq
  intro i hi
  have hplace : ¬ 5 + i < 2 ∧ 5 + i ≠ 2 ∧ 5 + i ≠ 3 ∧ 5 + i ≠ 4 := by omega
  rw [BitVec.getLsbD_extractLsb', ← byteBit, byteBit_flagByte]
  simp [hplace, hi]

/-- Byte 1 of a CONFIG frame has no bits but those of its fields and the reserved ones (30 R43). -/
theorem ConfigOperands.flagByte_eq {op : ConfigOperands} {b : Byte} (hcore : op.core.code = b.extractLsb' 5 3)
    (hrefin : op.refin = byteBit b 4) (hrefout : op.refout = byteBit b 3) (htable : op.withtable = byteBit b 2)
    (h1 : byteBit b 1 = false) (h0 : byteBit b 0 = false) : op.flagByte = b := by
  apply BitVec.eq_of_getLsbD_eq
  intro i hi
  rw [← byteBit, ← byteBit, byteBit_flagByte, hcore, hrefin, hrefout, htable, BitVec.getLsbD_extractLsb', ← byteBit]
  interval_cases i <;> simp [h1, h0]

/-- Byte 1 of a UPDBUF frame, bit by bit (30 R45). -/
theorem BufferOperands.byteBit_flagByte (buf : BufferOperands) (i : Nat) :
    byteBit buf.flagByte i = (decide (i = 0) && buf.present) := by
  unfold byteBit flagByte
  simp only [BitVec.getLsbD_append, BitVec.getLsbD_ofBool]
  grind

theorem BufferOperands.extractLsb'_flagByte (buf : BufferOperands) : buf.flagByte.extractLsb' 1 7 = 0 := by
  apply BitVec.eq_of_getLsbD_eq
  intro i hi
  rw [BitVec.getLsbD_extractLsb', ← byteBit, byteBit_flagByte]
  simp

/-- Byte 1 of a UPDBUF frame has no bits but `present` and the reserved ones (30 R45). -/
theorem BufferOperands.flagByte_eq {buf : BufferOperands} {b : Byte} (hreserved : b.extractLsb' 1 7 = 0)
    (hpresent : buf.present = byteBit b 0) : buf.flagByte = b := by
  apply BitVec.eq_of_getLsbD_eq
  intro i hi
  rw [← byteBit, ← byteBit, byteBit_flagByte, hpresent]
  cases i with
  | zero => simp
  | succ i =>
    have hbit : (b.extractLsb' 1 7).getLsbD i = false := by rw [hreserved]; exact BitVec.getLsbD_zero
    rw [BitVec.getLsbD_extractLsb', ← byteBit, Nat.add_comm 1 i, decide_eq_true (by omega)] at hbit
    simpa using hbit.symm

/-! ## Decode of encode -/

theorem decode_of_config_opcode {f : List Byte} (hop : f.head? = some 0x01) : decode f = decodeConfig f := by
  cases f with
  | nil => cases hop
  | cons b fs => cases hop; rfl

theorem decode_of_updbuf_opcode {f : List Byte} (hop : f.head? = some 0x03) : decode f = decodeUpdbuf f := by
  cases f with
  | nil => cases hop
  | cons b fs => cases hop; rfl

/-- The operand fields of a CONFIG frame (30 R43). -/
theorem fields_encode_config (op : ConfigOperands) :
    field 2 4 (encode (.config op)) = beBytes 4 op.width.toNat ∧
    field 6 2 (encode (.config op)) = beBytes 2 op.nb.toNat ∧
    field 8 op.nb.toNat (encode (.config op)) = beBytes op.nb.toNat op.poly ∧
    field (8 + op.nb.toNat) op.nb.toNat (encode (.config op)) = beBytes op.nb.toNat op.init ∧
    field (8 + 2 * op.nb.toNat) op.nb.toNat (encode (.config op)) = beBytes op.nb.toNat op.xorout := by
  simp (disch := omega) only [encode, List.append_assoc, List.cons_append, List.nil_append, field_cons,
    field_beBytes_append, field_beBytes_append_self, field_beBytes_self, and_self]

/-- The operand fields of a UPDBUF frame (30 R45). -/
theorem fields_encode_updbuf (buf : BufferOperands) :
    field 2 8 (encode (.updbuf buf)) = beBytes 8 buf.base.toNat ∧
    field 10 4 (encode (.updbuf buf)) = beBytes 4 buf.size.toNat ∧
    field 14 4 (encode (.updbuf buf)) = beBytes 4 buf.offset.toNat ∧
    field 18 4 (encode (.updbuf buf)) = beBytes 4 buf.length.toNat := by
  simp (disch := omega) only [encode, List.append_assoc, List.cons_append, List.nil_append, field_cons,
    field_beBytes_append, field_beBytes_append_self, field_beBytes_self, and_self]

/-- The three parameter operands come back from the `nb` bytes that each of them fits in. -/
theorem decode_encode_config {op : ConfigOperands} (h : op.wellFormed = true) :
    decode (encode (.config op)) = .ok (.config op) := by
  obtain ⟨hpoly, hinit, hxorout⟩ := op.wellFormed_iff.1 h
  obtain ⟨fwidth, fnb, fpoly, finit, fxorout⟩ := fields_encode_config op
  have hnb : beNat (field 6 2 (encode (.config op))) = op.nb.toNat := by
    rw [fnb, beNat_beBytes_toNat (by decide)]
  obtain ⟨hop, hlen⟩ := Laws.EncodedFrame.config op
  have hflags : (encode (.config op)).getD 1 0 = op.flagByte := rfl
  rw [decode_of_config_opcode hop, decodeConfig]
  dsimp only
  rw [hnb, hlen, Laws.EncodedFrame.frameLength, hflags, if_neg (by omega), if_neg (by simp [op.byteBit_flagByte]),
    op.extractLsb'_flagByte, CoreSel.ofCode_eq_some_iff.2 rfl]
  simp [fwidth, fpoly, finit, fxorout, op.byteBit_flagByte, beNat_beBytes_toNat, beNat_beBytes_of_lt, hpoly, hinit,
    hxorout]

theorem decode_encode_updbuf (buf : BufferOperands) : decode (encode (.updbuf buf)) = .ok (.updbuf buf) := by
  obtain ⟨fbase, fsize, foffset, flength⟩ := fields_encode_updbuf buf
  obtain ⟨hop, hlen⟩ := Laws.EncodedFrame.updbuf buf
  have hflags : (encode (.updbuf buf)).getD 1 0 = buf.flagByte := rfl
  rw [decode_of_updbuf_opcode hop, decodeUpdbuf]
  dsimp only
  rw [hlen, Laws.EncodedFrame.frameLength, hflags, buf.extractLsb'_flagByte, if_neg (by decide), if_neg (by decide)]
  simp [fbase, fsize, foffset, flength, buf.byteBit_flagByte, beNat_beBytes_toNat]

/-- Settles O5: the frame's shape depends on an operand for CONFIG only, and there every well-formed parameter fits its
`nb` bytes. -/
theorem decodeOfEncodeIsTheCommand : Obligations.DecodeOfEncodeIsTheCommand := by
  intro i h
  cases i with
  | config op => exact decode_encode_config h
  | upd data => rfl
  | updbuf buf => exact decode_encode_updbuf buf
  | fin => rfl
  | rst => rfl

/-! ## Encode of decode -/

theorem encode_of_decodeConfig {f : List Byte} {i : Instr} (hop : f.head? = some 0x01) (h : decodeConfig f = .ok i) :
    encode i = f := by
  obtain ⟨⟨hmin, hlen⟩, ⟨h1, h0⟩, core, hcore, rfl⟩ := decodeConfig_ok h
  have hnb := toNat_ofNat_beNat_field (n := 16) (k := 2) 6 f (by decide)
  have hcode := CoreSel.ofCode_eq_some_iff.1 hcore
  rw [encode, ConfigOperands.flagByte_eq hcode rfl rfl rfl h1 h0, ← field_zero_two hop (by omega),
    beBytes_ofNat_field (by decide) (by omega)]
  simp (disch := omega) only [hnb, beBytes_beNat_field, field_append_field, field_zero_eq_self]

theorem encode_of_decodeUpd {f : List Byte} {i : Instr} (hop : f.head? = some 0x02) (h : decodeUpd f = .ok i) :
    encode i = f := by
  obtain ⟨hlen, rfl⟩ := decodeUpd_ok h
  rw [encode, ← field_zero_two hop hlen.ge, field_zero_eq_self hlen.symm]

theorem encode_of_decodeUpdbuf {f : List Byte} {i : Instr} (hop : f.head? = some 0x03) (h : decodeUpdbuf f = .ok i) :
    encode i = f := by
  obtain ⟨hlen, hreserved, rfl⟩ := decodeUpdbuf_ok h
  rw [encode, BufferOperands.flagByte_eq hreserved rfl, ← field_zero_two hop (by omega)]
  simp (disch := omega) only [beBytes_ofNat_field (n := 64) (k := 8) (by decide),
    beBytes_ofNat_field (n := 32) (k := 4) (by decide), field_append_field, field_zero_eq_self]

/-- A frame of format N is its opcode. -/
theorem eq_singleton_of_decodeBare {f : List Byte} {i j : Instr} {opcode : Byte} (hop : f.head? = some opcode)
    (h : decodeBare i f = .ok j) : j = i ∧ f = [opcode] := by
  obtain ⟨hlen, hj⟩ := decodeBare_ok h
  obtain ⟨b, rfl⟩ := List.length_eq_one_iff.1 hlen
  cases hop
  exact ⟨hj, rfl⟩

/-- Settles O6: the opcode selects the format, and the format's operands and reserved bits make up the whole frame. -/
theorem encodeOfDecodeIsTheFrame : Obligations.EncodeOfDecodeIsTheFrame := by
  intro f i h
  refine ⟨decode_wellFormed h, ?_⟩
  obtain ⟨hop, hc⟩ | ⟨hop, hu⟩ | ⟨hop, hb⟩ | ⟨hop, hf⟩ | ⟨hop, hr⟩ := decode_ok_cases h
  · exact encode_of_decodeConfig hop hc
  · exact encode_of_decodeUpd hop hu
  · exact encode_of_decodeUpdbuf hop hb
  · obtain ⟨rfl, rfl⟩ := eq_singleton_of_decodeBare hop hf; rfl
  · obtain ⟨rfl, rfl⟩ := eq_singleton_of_decodeBare hop hr; rfl

/-- Settles O7: each printed frame decodes to its command, and is then that command's encoding. -/
theorem workedEncodingsDecode : Obligations.WorkedEncodingsDecode := by
  intro p hp
  have hdecode : decode p.1 = .ok p.2 := by
    revert p hp
    decide
  exact ⟨hdecode, (encodeOfDecodeIsTheFrame p.1 p.2 hdecode).2⟩

end Sys2Proof
end

section
/-! PROOFS. One response per frame (30_encoding R40, 60_exceptions R130), the response frames (30_encoding R52, R53) and
the pseudo-instruction CRC as a run of the block (30_encoding R55). -/

namespace Sys2Proof.Machine

/-! ## Responses -/

/-- Settles O41: count and value are their big-endian fields. -/
theorem responseFramesCarryTheResponse : Obligations.ResponseFramesCarryTheResponse := by
  have hvalue : ∀ v nb, v < 256 ^ nb → nb < 65536 →
      ∃ count value : List Byte, (Response.okValue v nb).wire = 0x00 :: (count ++ value) ∧
        count.length = 2 ∧ beNat count = nb ∧ value.length = nb ∧ beNat value = v :=
    fun v nb hv hnb => ⟨beBytes 2 nb, beBytes nb v, rfl, beBytes_length 2 nb, beNat_beBytes_of_lt hnb,
      beBytes_length nb v, beNat_beBytes_of_lt hv⟩
  exact ⟨rfl, hvalue, rfl, rfl, rfl, rfl, rfl⟩

/-- Settles O13: the one response is that of the command, or IllegalCommand; a host event and idling send none. -/
theorem everyFrameGetsExactlyOneResponse : Obligations.EveryFrameGetsExactlyOneResponse := by
  intro s
  obtain ⟨hp, hx⟩ | ⟨f, rest, i, hp, -, hx⟩ | ⟨f, rest, err, hp, -, hx⟩ | ⟨a, v, rest, hp, hx⟩ | ⟨rest, hp, hx⟩ :=
    step_cases s
  · exact ⟨s, hx, by simp [hp], by simp [hp], fun _ => rfl⟩
  · obtain ⟨e, r, l, hexec⟩ := exec_cases i { s with pending := rest }
    exact ⟨_, hx.trans hexec, by simp [hp], fun _ => ⟨r, rfl⟩, fun hno => absurd hp (hno f rest)⟩
  · exact ⟨_, hx, by simp [hp], fun _ => ⟨.error .illegalCommand, rfl⟩, fun hno => absurd hp (hno f rest)⟩
  · exact ⟨_, hx, by simp [hp], by simp [hp], fun _ => rfl⟩
  · exact ⟨_, hx, by simp [hp], by simp [hp], fun _ => rfl⟩

/-! ## Runs of issued commands -/

/-- The first step of a run, for any machine behind the host's interface. -/
theorem core_run_succ {M : Host.Core} {s t : M.State} (h : M.step s = .next t) (k : Nat) :
    M.run (k + 1) s = M.run k t := by
  rw [Host.Core.run, h]

theorem run_succ_of_step {s t : State} (h : step s = .next t) (k : Nat) :
    Host.Core.run Sys2Proof.core (k + 1) s = Host.Core.run Sys2Proof.core k t :=
  core_run_succ h k

/-- The next frame is that of a well-formed command: the command is executed (30 R50, 70 R153). -/
theorem step_encoded {s : State} {i : Instr} {rest : List HostEvent} (hi : i.wellFormed = true)
    (hp : s.pending = .frame (encode i) :: rest) : step s = exec i { s with pending := rest } :=
  step_decoded s _ rest i hp (decodeOfEncodeIsTheCommand i hi)

theorem step_config {s : State} {op : ConfigOperands} {rest : List HostEvent} (hadm : Admissible op)
    (hop : (Instr.config op).wellFormed = true) (hp : s.pending = .frame (encode (.config op)) :: rest) :
    step s = .next { s with engine := some (Engine.create (configCore op) op), pending := rest
                            responses := s.responses ++ [.ok] } := by
  rw [step_encoded hop hp, exec, execConfig_admissible op _ hadm]
  rfl

theorem step_upd {s : State} {e : Engine} {b : Byte} {rest : List HostEvent} (he : s.engine = some e)
    (hp : s.pending = .frame (encode (.upd b)) :: rest) :
    step s = .next { s with engine := some (e.consume b), pending := rest, responses := s.responses ++ [.ok] } := by
  rw [step_encoded (i := .upd b) rfl hp, exec, execUpd, withEngine_some { s with pending := rest } _ e he]
  rfl

theorem step_fin {s : State} {e : Engine} {rest : List HostEvent} (he : s.engine = some e)
    (hp : s.pending = .frame (encode .fin) :: rest) :
    step s = .next { s with engine := some e.rewind, pending := rest
                            responses := s.responses ++ [.okValue e.finValue e.nbytes] } := by
  rw [step_encoded (i := .fin) rfl hp, exec, execFin, withEngine_some { s with pending := rest } _ e he]
  rfl

/-- UPD frames to a configured block: their bytes are consumed in order, each is answered OK (42 R98). -/
theorem run_updFrames (k : Nat) (bs : List Byte) (rest : List HostEvent) {s : State} {e : Engine}
    (he : s.engine = some e) (hp : s.pending = updFrames bs ++ rest) :
    Host.Core.run Sys2Proof.core (bs.length + k) s =
      Host.Core.run Sys2Proof.core k
        { s with engine := some (e.feed bs), pending := rest
                 responses := s.responses ++ List.replicate bs.length .ok } := by
  induction bs generalizing s e with
  | nil =>
    obtain rfl : s.pending = rest := hp
    simp [← he]
  | cons b bs ih =>
    rw [List.length_cons, Nat.add_right_comm, run_succ_of_step (step_upd he hp), ih rfl rfl]
    simp [List.replicate_succ]

/-! ## The pseudo-instruction CRC -/

theorem Engine.rewind_feed (e : Engine) (bs : List Byte) : (e.feed bs).rewind = e.rewind := by
  obtain ⟨r, p, h⟩ := e.feed_frame bs
  rw [h]
  rfl

theorem Engine.rewind_create (c : Core) (op : ConfigOperands) : (Engine.create c op).rewind = Engine.create c op := rfl

theorem Engine.nbytes_feed (e : Engine) (bs : List Byte) : (e.feed bs).nbytes = e.nbytes := by
  obtain ⟨r, p, h⟩ := e.feed_frame bs
  rw [h]
  rfl

/-- Settles O30: CONFIG creates the engine, the UPDs feed it the text, FIN answers its value and loads INIT again, which
is the engine as CONFIG created it. -/
theorem crcProgramAnswersTheCrcValue : Obligations.CrcProgramAnswersTheCrcValue := by
  intro s op bs hadm hwf hp
  have hissued : (s.issueAll (crcProgram op bs)).pending =
      .frame (encode (.config op)) :: (updFrames bs ++ [.frame (encode .fin)]) := by
    simp [hp, crcProgram, updHex, updFrames]
  rw [run_succ_of_step (step_config hadm hwf hissued), run_updFrames 1 bs [.frame (encode .fin)] rfl rfl,
    run_succ_of_step (step_fin rfl rfl), Engine.rewind_feed, Engine.nbytes_feed, Engine.rewind_create, crcValue]
  simp [Host.Core.run, hp, Engine.nbytes, List.replicate_succ]

end Sys2Proof.Machine
end

section
/-! PROOFS. The primitives bit by bit (40_primitives R60 to R66), and CONFIG's blindness to operand bits at and above
the width (40 R70). One equation for the bits of each primitive; every law then compares bits. -/

namespace Sys2Proof.Machine

/-! ## Truncation -/

@[simp] theorem testBit_trunc (w v i : Nat) : (trunc w v).testBit i = (decide (i < w) && v.testBit i) :=
  Nat.testBit_mod_two_pow v w i

theorem trunc_of_lt {w v : Nat} (h : v < 2 ^ w) : trunc w v = v := Nat.mod_eq_of_lt h

@[simp] theorem trunc_trunc (w v : Nat) : trunc w (trunc w v) = trunc w v := trunc_of_lt (trunc_lt w v)

theorem trunc_eq_trunc_iff {w a b : Nat} : trunc w a = trunc w b ↔ ∀ i < w, a.testBit i = b.testBit i := by
  refine ⟨fun h i hi => ?_, fun h => Nat.eq_of_testBit_eq fun i => ?_⟩
  · simpa [hi] using congrArg (Nat.testBit · i) h
  · by_cases hi : i < w
    · simp [hi, h i hi]
    · simp [hi]

/-! ## The one-bit shifts -/

@[simp] theorem testBit_shl1 (C v i : Nat) :
    (shl1 C v).testBit i = (decide (1 ≤ i ∧ i < C) && v.testBit (i - 1)) := by
  rw [shl1, Nat.testBit_mod_two_pow, Nat.testBit_shiftLeft, ← Bool.and_assoc, ← Bool.decide_and]
  exact congrArg (· && _) (decide_eq_decide.2 and_comm)

@[simp] theorem testBit_shr1 (v i : Nat) : (shr1 v).testBit i = v.testBit (i + 1) := by
  rw [shr1, Nat.testBit_shiftRight, Nat.add_comm]

/-- Settles O1: the laws of truncation, and the one equation for the bits of each shift. -/
theorem truncationAndShiftsBitByBit : Obligations.TruncationAndShiftsBitByBit := by
  refine ⟨fun w v i _ => testBit_trunc w v i, fun w v _ => trunc_of_lt, fun w v _ => trunc_trunc w v,
    fun C v i _ _ => testBit_shl1 C v i, fun C v _ _ => shl1_lt C v, testBit_shr1, fun C v hC hv => ?_⟩
  rw [testBit_shr1, Nat.sub_add_cancel hC]
  exact Nat.testBit_lt_two_pow hv

/-! ## Bit reversal -/

/-- `rev` takes bit 0 to the top and reverses the rest below it: the bit moved to place n is `v.testBit 0`, the bit
moved to place i below it is bit n - 1 - i of `v / 2`, which is bit n - i of `v`. -/
@[simp] theorem testBit_rev (n v i : Nat) : (rev n v).testBit i = (decide (i < n) && v.testBit (n - 1 - i)) := by
  induction n generalizing v i with
  | zero => simp [rev]
  | succ n ih =>
    rw [rev, Nat.mul_comm, Nat.testBit_two_pow_mul_add _ (rev_lt n _)]
    obtain hi | rfl | hi := Nat.lt_trichotomy i n
    · have hplace : n - 1 - i + 1 = n - i := by omega
      simp [hi, ih, Nat.testBit_div_two, hplace, Nat.lt_succ_of_lt hi]
    · simp
    · have htop : ¬ i < n + 1 := by omega
      have hbit : (v % 2 ^ 1).testBit (i - n) = false := by
        rw [Nat.testBit_mod_two_pow, decide_eq_false (by omega), Bool.false_and]
      simpa [Nat.not_lt_of_gt hi, htop] using hbit

theorem rev_rev_eq_trunc (n v : Nat) : rev n (rev n v) = trunc n v := by
  refine Nat.eq_of_testBit_eq fun i => ?_
  by_cases hi : i < n
  · have hplace : n - 1 - (n - 1 - i) = i := by omega
    have hlow : n - 1 - i < n := by omega
    simp [hi, hlow, hplace]
  · simp [hi]

theorem rev_rev {n v : Nat} (h : v < 2 ^ n) : rev n (rev n v) = v := (rev_rev_eq_trunc n v).trans (trunc_of_lt h)

theorem rev_xor (n a b : Nat) : rev n (a ^^^ b) = rev n a ^^^ rev n b :=
  Nat.eq_of_testBit_eq fun i => by simp [Bool.and_xor_distrib_left]

theorem rev_zero (n : Nat) : rev n 0 = 0 := Nat.eq_of_testBit_eq fun i => by simp

theorem rev_two_pow_sub_one (n : Nat) : rev n (2 ^ n - 1) = 2 ^ n - 1 := by
  refine Nat.eq_of_testBit_eq fun i => ?_
  rw [testBit_rev, Nat.testBit_two_pow_sub_one, Nat.testBit_two_pow_sub_one, ← Bool.decide_and]
  exact decide_eq_decide.2 (by omega)

theorem rev_one {v : Nat} (h : v < 2) : rev 1 v = v := by
  rw [rev, rev, Nat.mod_eq_of_lt h, pow_zero, Nat.mul_one, Nat.add_zero]

/-- Settles O2: the bits of the reversal give the definition, the laws compare bits. -/
theorem reversalMovesEveryBitAndIsAnInvolution : Obligations.ReversalMovesEveryBitAndIsAnInvolution :=
  fun N _ =>
    ⟨fun v i _ hi => by rw [testBit_rev, decide_eq_true hi, Bool.true_and], fun v _ => rev_lt N v, fun _ => rev_rev,
      fun a b _ _ => rev_xor N a b, rev_zero N, rev_two_pow_sub_one N, fun _ => rev_one⟩

/-! ## Reversal across the container -/

/-- Bit i of the result is bit C - 1 - i of the left-aligned value: one of its w bits just when i is below w. -/
theorem rev_shiftLeft {C w : Nat} (hw : w ≤ C) (v : Nat) : rev C (v <<< (C - w)) = rev w v := by
  refine Nat.eq_of_testBit_eq fun i => ?_
  have hplace : C - 1 - i - (C - w) = w - 1 - i := by omega
  have hrange : i < C ∧ C - w ≤ C - 1 - i ↔ i < w := by omega
  rw [testBit_rev, testBit_rev, Nat.testBit_shiftLeft, hplace, ← Bool.and_assoc, ← Bool.decide_and,
    decide_eq_decide.2 hrange]

/-- `rev_shiftLeft` for the reversed value, both sides reversed once more across the container. -/
theorem rev_eq_rev_shiftLeft {C w v : Nat} (hw : w ≤ C) (hv : v < 2 ^ w) : rev C v = rev w v <<< (C - w) := by
  have hleft : rev w v <<< (C - w) < 2 ^ C := by
    have h := Nat.shiftLeft_lt (m := C - w) (rev_lt w v)
    rwa [Nat.add_sub_cancel' hw] at h
  calc rev C v
    _ = rev C (rev C (rev w v <<< (C - w))) := by rw [rev_shiftLeft hw, rev_rev hv]
    _ = rev w v <<< (C - w) := rev_rev hleft

/-- Settles O3: the first equation compares bits, the second is the first reversed across the container. -/
theorem containerReversalSwapsAlignment : Obligations.ContainerReversalSwapsAlignment :=
  fun _ _ v _ hw hv => ⟨rev_shiftLeft hw v, rev_eq_rev_shiftLeft hw hv⟩

/-! ## Alignment -/

@[simp] theorem testBit_align_forward (C w v i : Nat) :
    (align C w false v).testBit i = (decide (C - w ≤ i) && (trunc w v).testBit (i - (C - w))) :=
  Nat.testBit_shiftLeft _

@[simp] theorem testBit_align_reflected (C w v i : Nat) :
    (align C w true v).testBit i = (decide (i < w) && (trunc w v).testBit (w - 1 - i)) :=
  testBit_rev w _ i

theorem Placed.lt_two_pow {refin : Bool} {C w v : Nat} (h : Placed refin C w v) (hw : w ≤ C) : v < 2 ^ C := by
  cases refin with
  | false => exact (placed_forward_iff.1 h).1
  | true => exact (placed_reflected_iff.1 h).trans_le (Nat.pow_le_pow_right (by decide) hw)

/-- Alignment is a function of the low w bits (40 R65 step 1, R70). -/
theorem align_congr {w a b : Nat} (h : trunc w a = trunc w b) (C : Nat) (refl : Bool) :
    align C w refl a = align C w refl b := by
  unfold align
  rw [h]

/-- 90 C1: both readings of the reflected alignment agree. -/
theorem align_reflected_eq_rev_forward {C w : Nat} (hw : w ≤ C) (v : Nat) :
    align C w true v = rev C (align C w false v) :=
  (rev_shiftLeft hw (trunc w v)).symm

/-- Settles O4: where each bit lies from the bits of the two forms, the bound from the register invariant, the reading
of C1 from R66. -/
theorem alignmentPlacesTheSignificantBits : Obligations.AlignmentPlacesTheSignificantBits := by
  intro C w v _ hw
  refine ⟨rfl, rfl, fun i hi => ⟨?_, ?_⟩, fun i hi => ⟨?_, ?_⟩, fun refl => ⟨placed_align hw refl v, ?_, ?_⟩, ?_⟩
  · simp [hi]
  · have hplace : w - 1 - (w - 1 - i) = i := by omega
    have hlow : w - 1 - i < w := by omega
    simp [hi, hlow, hplace]
  · simp [Nat.not_le_of_gt hi]
  · simp
  · exact (placed_align hw refl v).lt_two_pow hw
  · exact align_congr (trunc_trunc w v).symm C refl
  · exact align_reflected_eq_rev_forward hw v

/-! ## Operand bits at and above the width -/

theorem trunc_widthNat_congr {op : ConfigOperands} {a b : Nat}
    (h : ∀ i : Nat, (i : Int) < op.width.toInt → a.testBit i = b.testBit i) :
    trunc (widthNat op) a = trunc (widthNat op) b :=
  trunc_eq_trunc_iff.2 fun i hi => h i (Int.lt_toNat.1 hi)

theorem eq_with_parameters {op op' : ConfigOperands} (hcore : op'.core = op.core) (hrefin : op'.refin = op.refin)
    (hrefout : op'.refout = op.refout) (htable : op'.withtable = op.withtable) (hwidth : op'.width = op.width) :
    op' = { op with nb := op'.nb, poly := op'.poly, init := op'.init, xorout := op'.xorout } := by
  rw [← hcore, ← hrefin, ← hrefout, ← htable, ← hwidth]

section Parameters

variable (op : ConfigOperands) (nb : BitVec 16) (poly init xorout : Nat)

/-- The core and the width decide the check (41 R76 to R78). -/
theorem configError_parameters :
    configError { op with nb := nb, poly := poly, init := init, xorout := xorout } = configError op := rfl

theorem configCore_parameters :
    configCore { op with nb := nb, poly := poly, init := init, xorout := xorout } = configCore op := rfl

variable {op poly init xorout} (hpoly : trunc (widthNat op) poly = trunc (widthNat op) op.poly)
  (hinit : trunc (widthNat op) init = trunc (widthNat op) op.init)
  (hxorout : trunc (widthNat op) xorout = trunc (widthNat op) op.xorout)

include hpoly hinit hxorout

/-- The engine CONFIG creates depends on `poly`, `init` and `xorout` by their low w bits only, and not on `nb`. -/
theorem Engine.create_parameters (c : Core) :
    Engine.create c { op with nb := nb, poly := poly, init := init, xorout := xorout } = Engine.create c op := by
  simp only [Engine.create, widthNat, widthInt] at *
  rw [align_congr hpoly, align_congr hinit, hxorout]

theorem execConfig_parameters (s : State) :
    execConfig { op with nb := nb, poly := poly, init := init, xorout := xorout } s = execConfig op s := by
  rw [execConfig, execConfig, configError_parameters, configCore_parameters,
    Engine.create_parameters nb hpoly hinit hxorout]

end Parameters

/-- Settles O17: the checks read the core and the width only, the engine created reads the parameters through
truncation. -/
theorem bitsAboveTheWidthHaveNoEffect : Obligations.BitsAboveTheWidthHaveNoEffect := by
  intro op op' s hcore hrefin hrefout htable hwidth hpoly hinit hxorout
  rw [eq_with_parameters hcore hrefin hrefout htable hwidth]
  exact execConfig_parameters op'.nb (trunc_widthNat_congr hpoly) (trunc_widthNat_congr hinit)
    (trunc_widthNat_congr hxorout) s

end Sys2Proof.Machine
end

section
/-! PROOFS. CONFIG: the resolved core and its container, the widths it refuses, the engine it creates
(41_configure_and_table R75 to R80, R86, R87). -/

namespace Sys2Proof.Machine

/-! ## The core and its container -/

theorem resolve_auto (w : Nat) :
    resolve .auto w = if w ≤ 8 then .c8 else if w ≤ 16 then .c16 else if w ≤ 64 then .c64 else .multi := rfl

theorem cbitsOf_multi (w : Nat) : cbitsOf .multi w = 8 * ((w + 7) / 8) := rfl

/-- Settles O14: the table of R77 by its bounds, the sizes of R79 from the shard count. -/
theorem autoPicksTheSmallestContainer : Obligations.AutoPicksTheSmallestContainer := by
  intro w hw
  refine ⟨⟨rfl, rfl, rfl, rfl⟩, fun h => ?_, fun h9 h16 => ?_, fun h17 h64 => ?_, fun h65 => ?_, ⟨rfl, rfl, rfl⟩,
    ⟨Nat.dvd_mul_right 8 _, ?_, ?_⟩, fun c hc => ⟨le_cbitsOf hc, eight_le_cbitsOf hw⟩⟩
  · rw [resolve_auto, if_pos h]
  · rw [resolve_auto, if_neg (by omega), if_pos h16]
  · rw [resolve_auto, if_neg (by omega), if_neg (by omega), if_pos h64]
  · rw [resolve_auto, if_neg (by omega), if_neg (by omega), if_neg (by omega)]
  · rw [cbitsOf_multi]
    omega
  · rw [cbitsOf_multi]
    omega

/-! ## The width check -/

theorem one_le_capacity (c : Core) : 1 ≤ capacity c := by
  cases c with
  | c8 => exact show 1 ≤ 8 by decide
  | c16 => exact show 1 ≤ 16 by decide
  | c64 => exact show 1 ≤ 64 by decide
  | multi => exact (show 1 ≤ 82 by decide).trans Config.wmax_ge

/-- Under AUTO only WMAX bounds the width: each smaller core is picked for widths it holds (41 R77, R78). -/
theorem le_capacity_resolve_auto {w : Nat} (h : w ≤ Config.wmax) : w ≤ capacity (resolve .auto w) := by
  rw [resolve_auto]
  split_ifs with h8 h16 h64
  · exact h8
  · exact h16
  · exact h64
  · exact h

/-- A CONFIG that is not admissible ends with InvalidArgument(width) and writes nothing else (41 R88, 60 R132). -/
theorem exec_config_of_not_admissible (s : State) {op : ConfigOperands} (h : ¬ Admissible op) :
    exec (.config op) s = .next { s with responses := s.responses ++ [.error (.invalidArgument .width)] } := by
  have herror : configError op = some (.invalidArgument .width) :=
    (configError_cases op).resolve_left fun hnone => h ((configError_eq_none_iff op).1 hnone)
  exact execConfig_refused op s herror

/-- Settles O16: each refused width fails one half of admissibility. -/
theorem configRefusesUnfitWidths : Obligations.ConfigRefusesUnfitWidths := by
  refine ⟨fun op s hwidth => ?_, fun op s hpos hcap => ?_, fun op hone => ?_,
    ⟨rfl, rfl, rfl, rfl, Config.wmax_ge, Config.wmax_le⟩, fun op hauto hpos hrefused => ?_⟩
  · exact exec_config_of_not_admissible s fun hadm => Int.not_lt.2 hwidth hadm.1
  · refine exec_config_of_not_admissible s fun hadm => ?_
    have hfits : op.width.toInt.toNat ≤ capacity (resolve op.core op.width.toInt.toNat) := hadm.2
    omega
  · have hw : widthNat op = 1 := congrArg Int.toNat hone
    exact ⟨by omega, hw ▸ one_le_capacity (configCore op)⟩
  · by_contra hle
    have hw : widthNat op ≤ Config.wmax := Int.toNat_le.2 (Int.not_lt.1 hle)
    have hcore : configCore op = resolve .auto (widthNat op) := congrArg (resolve · (widthNat op)) hauto
    exact hrefused ⟨hpos, hcore ▸ le_capacity_resolve_auto hw⟩

/-! ## The engine CONFIG creates -/

@[simp] theorem Engine.withtable_create (c : Core) (op : ConfigOperands) :
    (Engine.create c op).withtable = op.withtable := by
  rw [Engine.withtable, Engine.create_table]
  cases op.withtable with
  | false => rfl
  | true => rfl

/-- Settles O15: the engine is the one CONFIG creates, whatever the state; its table holds the entries of R81. -/
theorem configCreatesTheEngine : Obligations.ConfigCreatesTheEngine := by
  intro op s hadm
  refine ⟨Engine.create (configCore op) op, execConfig_admissible op s hadm, rfl, Int.toNat_of_nonneg hadm.1.le,
    rfl, rfl, rfl, rfl, Engine.withtable_create _ op, rfl, rfl, rfl, fun htable => ?_, rfl, rfl⟩
  exact ⟨_, (Engine.create_table _ op).trans (if_pos htable), Table.lookup_generate _ _ _⟩

end Sys2Proof.Machine
end

section
/-! PROOFS. The generated tables (41_configure_and_table R81 to R85): a round is linear over XOR, eight rounds take the
byte's single bit to the end where it becomes POLY, and a forward round commutes with widening the container. -/

namespace Sys2Proof.Machine

/-! ## A round is linear over XOR -/

theorem topBit_xor (C a b : Nat) : topBit C (a ^^^ b) = (topBit C a ^^ topBit C b) := Nat.testBit_xor ..

theorem botBit_xor (a b : Nat) : botBit (a ^^^ b) = (botBit a ^^ botBit b) := Nat.testBit_xor ..

theorem shl1_xor (C a b : Nat) : shl1 C (a ^^^ b) = shl1 C a ^^^ shl1 C b := by
  rw [shl1, Nat.shiftLeft_xor_distrib, Nat.xor_mod_two_pow]
  rfl

theorem shr1_xor (a b : Nat) : shr1 (a ^^^ b) = shr1 a ^^^ shr1 b := Nat.shiftRight_xor_distrib

/-- Where both conditions hold, the two `p` cancel. -/
theorem ite_xor_eq_xor_ite (a b p : Nat) : ∀ x y : Bool,
    (if (x ^^ y) = true then (a ^^^ b) ^^^ p else a ^^^ b) =
      (if x = true then a ^^^ p else a) ^^^ (if y = true then b ^^^ p else b)
  | false, false => rfl
  | false, true => Nat.xor_assoc a b p
  | true, false => Nat.xor_right_comm a b p
  | true, true => by simp [Nat.xor_right_comm a p, ← Nat.xor_assoc]

theorem roundFwd_xor (C poly : Nat) : Function.Semiconj₂ (roundFwd C poly) (· ^^^ ·) (· ^^^ ·) := fun a b => by
  simp only [roundFwd, topBit_xor, shl1_xor, ite_xor_eq_xor_ite]

theorem roundRef_xor (poly : Nat) : Function.Semiconj₂ (roundRef poly) (· ^^^ ·) (· ^^^ ·) := fun a b => by
  simp only [roundRef, botBit_xor, shr1_xor, ite_xor_eq_xor_ite]

theorem entry_xor (C poly : Nat) (refin : Bool) (a b : Byte) :
    entry C poly refin (a ^^^ b) = entry C poly refin a ^^^ entry C poly refin b := by
  cases refin with
  | false =>
    have hbyte : msbyte C (a ^^^ b) = msbyte C a ^^^ msbyte C b := by
      rw [msbyte, BitVec.toNat_xor, Nat.shiftLeft_xor_distrib]
      rfl
    exact (congrArg (roundsFwd C poly) hbyte).trans ((roundFwd_xor C poly).iterate 8 _ _)
  | true =>
    have hbyte : lsbyte (a ^^^ b) = lsbyte a ^^^ lsbyte b := BitVec.toNat_xor ..
    exact (congrArg (roundsRef poly) hbyte).trans ((roundRef_xor poly).iterate 8 _ _)

/-! ## A single bit -/

theorem roundFwd_two_pow {C n : Nat} (poly : Nat) (h : n + 1 < C) : roundFwd C poly (2 ^ n) = 2 ^ (n + 1) := by
  have htop : topBit C (2 ^ n) = false := Nat.testBit_two_pow_of_ne (by omega)
  rw [roundFwd, htop, if_neg Bool.false_ne_true, shl1, Nat.shiftLeft_eq, ← pow_succ]
  exact Nat.mod_eq_of_lt (Nat.pow_lt_pow_right (by decide) h)

theorem roundFwd_top (n poly : Nat) : roundFwd (n + 1) poly (2 ^ n) = poly := by
  have htop : topBit (n + 1) (2 ^ n) = true := Nat.testBit_two_pow_self
  rw [roundFwd, htop, if_pos rfl, shl1, Nat.shiftLeft_eq, ← pow_succ, Nat.mod_self, Nat.zero_xor]

theorem iterate_roundFwd_two_pow {C n k : Nat} (poly : Nat) (h : n + k < C) :
    (roundFwd C poly)^[k] (2 ^ n) = 2 ^ (n + k) := by
  induction k with
  | zero => rfl
  | succ k ih => 
    rw [Function.iterate_succ_apply', ih (Nat.lt_of_succ_lt h)]
    exact roundFwd_two_pow poly h

theorem roundRef_two_pow_succ (n poly : Nat) : roundRef poly (2 ^ (n + 1)) = 2 ^ n := by
  have hbot : botBit (2 ^ (n + 1)) = false := Nat.testBit_two_pow_of_ne (Nat.succ_ne_zero n)
  rw [roundRef, hbot, if_neg Bool.false_ne_true, shr1, Nat.shiftRight_one, pow_succ]
  exact Nat.mul_div_cancel _ Nat.two_pos

theorem roundRef_one (poly : Nat) : roundRef poly 1 = poly := Nat.zero_xor poly

theorem iterate_roundRef_two_pow (k poly : Nat) : (roundRef poly)^[k] (2 ^ k) = 1 := by
  induction k with
  | zero => rfl
  | succ k ih => rw [Function.iterate_succ_apply, roundRef_two_pow_succ, ih]

/-- Seven rounds take bit C - 8 to the top, the eighth turns it into POLY (41 R84). -/
theorem entry_forward_one {C : Nat} (poly : Nat) (h : 8 ≤ C) : entry C poly false 1 = poly := by
  obtain ⟨n, rfl⟩ := Nat.exists_eq_add_of_le' h
  have hbyte : msbyte (n + 8) 1 = 2 ^ n := Nat.one_shiftLeft n
  calc entry (n + 8) poly false 1
    _ = (roundFwd (n + 8) poly)^[8] (2 ^ n) := congrArg (roundsFwd (n + 8) poly) hbyte
    _ = roundFwd (n + 8) poly ((roundFwd (n + 8) poly)^[7] (2 ^ n)) := Function.iterate_succ_apply' _ 7 _
    _ = roundFwd (n + 8) poly (2 ^ (n + 7)) := by rw [iterate_roundFwd_two_pow poly (by omega)]
    _ = poly := roundFwd_top (n + 7) poly

/-- Seven rounds take bit 7 to the bottom, the eighth turns it into POLY (41 R84). -/
theorem entry_reflected_high (C poly : Nat) : entry C poly true 128 = poly := by
  have hbyte : lsbyte 128 = 2 ^ 7 := rfl
  calc entry C poly true 128
    _ = (roundRef poly)^[8] (2 ^ 7) := congrArg (roundsRef poly) hbyte
    _ = roundRef poly ((roundRef poly)^[7] (2 ^ 7)) := Function.iterate_succ_apply' _ 7 _
    _ = roundRef poly 1 := by rw [iterate_roundRef_two_pow]
    _ = poly := roundRef_one poly

/-- Settles O18: every clause is one about `entry`. -/
theorem generatedTablesAreLinear : Obligations.GeneratedTablesAreLinear := by
  intro C w poly refin hC _ _ hpoly t
  have hlookup : ∀ b, t.lookup b = entry C poly refin b := Table.lookup_generate C poly refin
  have hxor : ∀ a b, t.lookup (a ^^^ b) = t.lookup a ^^^ t.lookup b := fun a b => by
    simp only [hlookup, entry_xor]
  refine ⟨?_, hxor, ?_, ?_, placed_lookup_generate hC hpoly, ?_, ?_⟩
  · exact (hxor 0 0).trans (Nat.xor_self _)
  · rintro rfl
    exact (hlookup 1).trans (entry_forward_one poly hC)
  · rintro rfl
    exact (hlookup 128).trans (entry_reflected_high C poly)
  · rintro b rfl
    exact (hlookup b).trans (entry_forward_eq_bitwiseFwd C poly b)
  · rintro b rfl
    exact (hlookup b).trans (entry_reflected_eq_bitwiseRef C poly b)

/-! ## A wider container -/

theorem topBit_shiftLeft {C : Nat} (hC : 1 ≤ C) (d t : Nat) : topBit (C + d) (t <<< d) = topBit C t := by
  have hplace : C + d - 1 - d = C - 1 := by omega
  have hrange : d ≤ C + d - 1 := by omega
  rw [topBit, Nat.testBit_shiftLeft, hplace, decide_eq_true hrange, Bool.true_and]
  rfl

theorem shl1_shiftLeft (C d t : Nat) : shl1 (C + d) (t <<< d) = shl1 C t <<< d := by
  simp only [shl1, Nat.shiftLeft_eq]
  rw [pow_add, Nat.mul_right_comm, Nat.mul_mod_mul_right]

/-- A forward round in a container d bits wider, on the value and POLY shifted left by d, is the narrow round shifted
left by d (41 R85, 90 C6). -/
theorem roundFwd_shiftLeft {C : Nat} (hC : 1 ≤ C) (d poly : Nat) :
    Function.Semiconj (· <<< d) (roundFwd C poly) (roundFwd (C + d) (poly <<< d)) := fun t => by
  simp only [roundFwd, topBit_shiftLeft hC, shl1_shiftLeft]
  split
  · exact Nat.shiftLeft_xor_distrib
  · rfl

theorem msbyte_add {C : Nat} (hC : 8 ≤ C) (d : Nat) (b : Byte) : msbyte (C + d) b = msbyte C b <<< d := by
  rw [msbyte, Nat.sub_add_comm hC, Nat.shiftLeft_add]
  rfl

theorem entry_forward_wider {C : Nat} (hC : 8 ≤ C) (d poly : Nat) (b : Byte) :
    entry (C + d) (poly <<< d) false b = entry C poly false b <<< d := by
  have hrounds := (roundFwd_shiftLeft (Nat.one_le_of_lt hC) d poly).iterate_right 8 (msbyte C b)
  exact (congrArg (roundsFwd (C + d) (poly <<< d)) (msbyte_add hC d b)).trans hrounds.symm

/-- Settles O19: a reflected entry does not read C, a forward one commutes with the shift. -/
theorem tablesAcrossContainers : Obligations.TablesAcrossContainers := by
  intro C C' poly b hC hle _
  obtain ⟨d, rfl⟩ := Nat.exists_eq_add_of_le hle
  simp only [Table.lookup_generate, Nat.add_sub_cancel_left]
  exact ⟨rfl, entry_forward_wider hC d poly b⟩

end Sys2Proof.Machine
end

section
/-! PROOFS. The byte update: UPD consumes one byte by one of four forms (42_update R90 to R94), each of which keeps the
register invariant (R102), and the table path equals the bit-by-bit path (R95): a round is linear over XOR, so eight
rounds act apart on the part of the register that they only shift and on the byte that leaves it. -/

namespace Sys2Proof.Machine

/-! ## The form that `WITHTABLE` and `REFIN` fix -/

section Forms

variable {e : Engine}

theorem Engine.updateByte_bitwise_forward (ht : e.table = none) (hr : e.refin = false) (r : Nat) (b : Byte) :
    e.updateByte r b = bitwiseFwd e.cbits e.poly r b := by
  rw [Engine.updateByte, ht, hr]

theorem Engine.updateByte_bitwise_reflected (ht : e.table = none) (hr : e.refin = true) (r : Nat) (b : Byte) :
    e.updateByte r b = bitwiseRef e.poly r b := by
  rw [Engine.updateByte, ht, hr]

theorem Engine.updateByte_table_forward {t : Table} (ht : e.table = some t) (hr : e.refin = false) (r : Nat)
    (b : Byte) : e.updateByte r b = tableFwd e.cbits t r b := by
  rw [Engine.updateByte, ht, hr]

theorem Engine.updateByte_table_reflected {t : Table} (ht : e.table = some t) (hr : e.refin = true) (r : Nat)
    (b : Byte) : e.updateByte r b = tableRef t r b := by
  rw [Engine.updateByte, ht, hr]

end Forms

/-- The top byte is all that is left of a C-bit value above its low C - 8 bits. -/
theorem toNat_hibyte {C r : Nat} (hC : 8 ≤ C) (hr : r < 2 ^ C) : (hibyte C r).toNat = r >>> (C - 8) := by
  have hbound : r >>> (C - 8) < 2 ^ 8 := by
    rw [Nat.shiftRight_eq_div_pow]
    refine Nat.div_lt_of_lt_mul ?_
    rwa [← pow_add, Nat.sub_add_cancel hC]
  rw [hibyte, BitVec.toNat_ofNat, Nat.mod_eq_of_lt hbound]

theorem toNat_lobyte (r : Nat) : (lobyte r).toNat = r % 2 ^ 8 := BitVec.toNat_ofNat ..

/-! ## UPD -/

theorem exec_upd {s : State} {e : Engine} (b : Byte) (he : s.engine = some e) :
    exec (.upd b) s = .next { s with engine := some (e.consume b), responses := s.responses ++ [.ok] } :=
  withEngine_some s _ e he

/-- Settles O20: the byte consumed goes through the form of the update that the table and the orientation select; the
index bytes of the table forms are the register's top and bottom byte. -/
theorem updConsumesOneByte : Obligations.UpdConsumesOneByte := by
  intro s b
  refine ⟨withEngine_none s _, fun e he => ⟨e.updateByte e.reg b, exec_upd b he, ?_, ?_, ?_, ?_⟩⟩
  · exact fun ht hr => e.updateByte_bitwise_forward ht hr e.reg b
  · exact fun ht hr => e.updateByte_bitwise_reflected ht hr e.reg b
  · intro t ht hr hreg hC
    refine ⟨hibyte e.cbits e.reg ^^^ b, ?_, e.updateByte_table_forward ht hr e.reg b⟩
    rw [BitVec.toNat_xor, toNat_hibyte hC hreg]
  · intro t ht hr
    refine ⟨lobyte e.reg ^^^ b, ?_, e.updateByte_table_reflected ht hr e.reg b⟩
    rw [BitVec.toNat_xor, toNat_lobyte, ← Nat.and_two_pow_sub_one_eq_mod]

/-! ## The register invariant -/

/-- Settles O22: the invariant holds again after eight rounds in either orientation, and after the form that a good
engine uses. -/
theorem byteUpdateKeepsTheRegisterInvariant : Obligations.ByteUpdateKeepsTheRegisterInvariant :=
  ⟨fun _ _ _ _ b hC _ _ hp hr => placed_bitwiseFwd hC hp hr b, fun _ _ _ _ b _ _ _ hp hr => placed_bitwiseRef hp hr b,
    fun _ b h => h.placed_updateByte h.reg_placed b⟩

/-! ## Rounds that only shift -/

/-- A value is its low n bits and the bits above them. -/
theorem mod_two_pow_xor_shiftRight_shiftLeft (n v : Nat) : v % 2 ^ n ^^^ (v >>> n) <<< n = v := by
  refine Nat.eq_of_testBit_eq fun i => ?_
  rw [Nat.testBit_xor, Nat.testBit_mod_two_pow, Nat.testBit_shiftLeft, Nat.testBit_shiftRight]
  obtain hi | hi := Nat.lt_or_ge i n
  · simp [hi, Nat.not_le.2 hi]
  · simp [hi, Nat.not_lt.2 hi]

/-- With the top bit clear a forward round is a shift: nothing is lost and POLY stays out. -/
theorem roundFwd_of_lt {C t : Nat} (poly : Nat) (h : t < 2 ^ (C - 1)) (hC : 1 ≤ C) : roundFwd C poly t = t <<< 1 := by
  have htop : topBit C t = false := Nat.testBit_lt_two_pow h
  have hfits : t <<< 1 < 2 ^ C := by
    have := Nat.shiftLeft_lt (m := 1) h
    rwa [Nat.sub_add_cancel hC] at this
  rw [roundFwd, htop, if_neg Bool.false_ne_true, shl1, Nat.mod_eq_of_lt hfits]

theorem iterate_roundFwd_of_lt {C k t : Nat} (poly : Nat) (hk : k ≤ C) (h : t < 2 ^ (C - k)) :
    (roundFwd C poly)^[k] t = t <<< k := by
  induction k generalizing t with
  | zero => rfl
  | succ k ih =>
    have hlow : t < 2 ^ (C - 1) := h.trans_le (Nat.pow_le_pow_right (by decide) (by omega))
    have hnext : t <<< 1 < 2 ^ (C - k) := by
      have := Nat.shiftLeft_lt (m := 1) h
      rwa [show C - (k + 1) + 1 = C - k by omega] at this
    rw [Function.iterate_succ_apply, roundFwd_of_lt poly hlow (by omega), ih (by omega) hnext, ← Nat.shiftLeft_add,
      Nat.add_comm]

/-- With the bottom bit clear a reflected round is a shift, and POLY stays out. -/
theorem roundRef_shiftLeft_one (poly t : Nat) : roundRef poly (t <<< 1) = t := by
  have hbot : botBit (t <<< 1) = false := by simp [botBit]
  rw [roundRef, hbot, if_neg Bool.false_ne_true, shr1, Nat.shiftLeft_shiftRight]

theorem iterate_roundRef_shiftLeft (k poly t : Nat) : (roundRef poly)^[k] (t <<< k) = t := by
  induction k with
  | zero => rfl
  | succ k ih => rw [Function.iterate_succ_apply, Nat.shiftLeft_add, roundRef_shiftLeft_one, ih]

/-! ## The table path equals the bit-by-bit path -/

/-- The eight rounds shift the low C - 8 bits of the register up, and make the entry of the register's top byte XOR the
new byte (42 R91, R93, R95). -/
theorem tableFwd_eq_bitwiseFwd {C r : Nat} (poly : Nat) (hC : 8 ≤ C) (hr : r < 2 ^ C) (b : Byte) :
    tableFwd C (Table.generate C poly false) r b = bitwiseFwd C poly r b := by
  have hlow : r % 2 ^ (C - 8) < 2 ^ (C - 8) := Nat.mod_lt _ (Nat.two_pow_pos _)
  have hsplit : r ^^^ msbyte C b = r % 2 ^ (C - 8) ^^^ msbyte C (hibyte C r ^^^ b) := by
    rw [msbyte, msbyte, BitVec.toNat_xor, toNat_hibyte hC hr, Nat.shiftLeft_xor_distrib, ← Nat.xor_assoc,
      mod_two_pow_xor_shiftRight_shiftLeft]
  have hshift : (r <<< 8) % 2 ^ C = (r % 2 ^ (C - 8)) <<< 8 := by
    rw [Nat.shiftLeft_eq, Nat.shiftLeft_eq, ← Nat.mul_mod_mul_right, ← pow_add, Nat.sub_add_cancel hC]
  symm
  calc bitwiseFwd C poly r b
    _ = (roundFwd C poly)^[8] (r % 2 ^ (C - 8) ^^^ msbyte C (hibyte C r ^^^ b)) := congrArg (roundsFwd C poly) hsplit
    _ = (roundFwd C poly)^[8] (r % 2 ^ (C - 8)) ^^^ entry C poly false (hibyte C r ^^^ b) :=
      (roundFwd_xor C poly).iterate 8 _ _
    _ = tableFwd C (Table.generate C poly false) r b := by
      rw [iterate_roundFwd_of_lt poly hC hlow, tableFwd, Table.lookup_generate, hshift]

/-- The eight rounds shift the bits of the register above the bottom byte down, and make the entry of the bottom byte
XOR the new byte (42 R92, R94, R95). -/
theorem tableRef_eq_bitwiseRef (C poly r : Nat) (b : Byte) :
    tableRef (Table.generate C poly true) r b = bitwiseRef poly r b := by
  have hsplit : r ^^^ lsbyte b = (r >>> 8) <<< 8 ^^^ lsbyte (lobyte r ^^^ b) := by
    rw [lsbyte, lsbyte, BitVec.toNat_xor, toNat_lobyte, ← Nat.xor_assoc, Nat.xor_comm _ (r % 2 ^ 8),
      mod_two_pow_xor_shiftRight_shiftLeft]
  symm
  calc bitwiseRef poly r b
    _ = (roundRef poly)^[8] ((r >>> 8) <<< 8 ^^^ lsbyte (lobyte r ^^^ b)) := congrArg (roundsRef poly) hsplit
    _ = (roundRef poly)^[8] ((r >>> 8) <<< 8) ^^^ entry C poly true (lobyte r ^^^ b) :=
      (roundRef_xor poly).iterate 8 _ _
    _ = tableRef (Table.generate C poly true) r b := by
      rw [iterate_roundRef_shiftLeft, tableRef, Table.lookup_generate]

/-! ## The engine without its table -/

/-- The same engine with `WITHTABLE` 0 (10 R20, R22): it updates bit by bit. -/
def Engine.withoutTable (e : Engine) : Engine := { e with table := none }

theorem Engine.withoutTable_create (c : Core) (op : ConfigOperands) :
    (Engine.create c op).withoutTable = Engine.create c { op with withtable := false } := rfl

theorem Engine.finValue_withoutTable (e : Engine) : e.withoutTable.finValue = e.finValue := rfl

theorem Engine.Good.width_le_cbits {e : Engine} (h : e.Good) : e.width ≤ e.cbits :=
  h.cbits_eq ▸ le_cbitsOf h.width_le

theorem Engine.Good.reg_lt {e : Engine} (h : e.Good) : e.reg < 2 ^ e.cbits :=
  h.reg_placed.lt_two_pow h.width_le_cbits

/-- 42 R95 for the table of a good engine, which is the generated one. -/
theorem Engine.Good.updateByte_withoutTable {e : Engine} (h : e.Good) (b : Byte) :
    e.withoutTable.updateByte e.reg b = e.updateByte e.reg b := by
  cases ht : e.table with
  | none => rw [withoutTable, ← ht]
  | some t =>
    have hgen := h.table_eq t ht
    cases hr : e.refin with
    | false =>
      rw [e.updateByte_table_forward ht hr, hgen, hr, tableFwd_eq_bitwiseFwd e.poly h.eight_le_cbits h.reg_lt]
      exact e.withoutTable.updateByte_bitwise_forward rfl hr e.reg b
    | true =>
      rw [e.updateByte_table_reflected ht hr, hgen, hr, tableRef_eq_bitwiseRef]
      exact e.withoutTable.updateByte_bitwise_reflected rfl hr e.reg b

theorem Engine.Good.consume_withoutTable {e : Engine} (h : e.Good) (b : Byte) :
    e.withoutTable.consume b = (e.consume b).withoutTable :=
  congrArg (fun r => { e.withoutTable with reg := r, phase := .accumulating }) (h.updateByte_withoutTable b)

theorem Engine.Good.feed_withoutTable {e : Engine} (h : e.Good) (bs : List Byte) :
    e.withoutTable.feed bs = (e.feed bs).withoutTable := by
  induction bs generalizing e with
  | nil => rfl
  | cons b bs ih => rw [feed_cons, h.consume_withoutTable, ih (h.consume b), feed_cons]

/-- The engine of a CONFIG without the table, after any bytes, is that of the CONFIG itself but for the table. -/
theorem feed_create_withtable_false {op : ConfigOperands} (h : Admissible op) (bs : List Byte) :
    (Engine.create (configCore op) { op with withtable := false }).feed bs =
      ((Engine.create (configCore op) op).feed bs).withoutTable := by
  rw [← Engine.withoutTable_create, (Engine.good_create h).feed_withoutTable]

theorem crcValue_withtable_false {op : ConfigOperands} (h : Admissible op) (bs : List Byte) :
    crcValue { op with withtable := false } bs = crcValue op bs :=
  (congrArg Engine.finValue (feed_create_withtable_false h bs)).trans (Engine.finValue_withoutTable _)

/-- Settles O21: both paths are linear in the register; a good engine's table is the generated one, and without it
the engine goes through the same registers. -/
theorem tablePathEqualsBitByBitPath : Obligations.TablePathEqualsBitByBitPath := by
  refine ⟨fun C w poly r b hC _ hw _ hr => tableFwd_eq_bitwiseFwd poly hC (hr.lt_two_pow hw) b,
    fun C w poly r b _ _ _ _ _ => tableRef_eq_bitwiseRef C poly r b,
    fun e b h => (h.updateByte_withoutTable b).symm, fun op bs h => ?_⟩
  have hadm : Admissible { op with withtable := true } := h
  exact ⟨(congrArg Engine.reg (feed_create_withtable_false hadm bs)).symm, (crcValue_withtable_false hadm bs).symm⟩

end Sys2Proof.Machine
end

section
/-! PROOFS. UPDBUF: the range it consumes (42_update R96, 20_memory R34), its argument checks in their order (R97), the
empty range (R99), and that only the bytes consumed count, not how commands cut them (R98). -/

namespace Sys2Proof.Machine

/-! ## An UPDBUF in range -/

theorem exec_updbuf_inRange {s : State} {e : Engine} {buf : BufferOperands} (he : s.engine = some e)
    (h : InRange buf) :
    exec (.updbuf buf) s =
      .next { s with engine := some (e.feed (s.mem.bytes (firstAddr buf) (byteCount buf)))
                     responses := s.responses ++ [.ok]
                     reads := s.reads ++ List.range' (firstAddr buf) (byteCount buf) } :=
  exec_consumes (.updbuf buf) s e he h

/-- Settles O23: the bytes are read address by address, and the range lies in a buffer that lies in the space. -/
theorem updbufConsumesItsRange : Obligations.UpdbufConsumesItsRange := by
  intro s e buf he h a n
  refine ⟨?_, fun x hx => ?_⟩
  · rw [exec_updbuf_inRange he h, Memory.bytes_eq_map]
    rfl
  · obtain ⟨-, hspace, hoffset, hlength, hsize⟩ := h
    obtain ⟨hlo, hhi⟩ := List.mem_range'_1.1 hx
    omega

/-! ## The argument checks -/

theorem bufferError_of_absent {buf : BufferOperands} (h : buf.present = false) :
    bufferError buf = some (.invalidArgument .buffer) := if_pos h

theorem bufferError_of_past_top {buf : BufferOperands} (h : buf.present = true)
    (htop : 2 ^ 64 < buf.base.toNat + buf.size.toNat) : bufferError buf = some (.invalidArgument .buffer) := by
  rw [bufferError, if_neg (by simp [h])]
  exact if_pos htop

theorem bufferError_of_out_of_range {buf : BufferOperands} (h : buf.present = true)
    (hspace : buf.base.toNat + buf.size.toNat ≤ 2 ^ 64)
    (hrange : buf.offset.toInt < 0 ∨ buf.length.toInt < 0 ∨
      (buf.size.toNat : Int) < buf.offset.toInt + buf.length.toInt) :
    bufferError buf = some (.invalidArgument .range) := by
  have hfits : ¬ Config.memSize < buf.base.toNat + buf.size.toNat := Nat.not_lt.2 hspace
  rw [bufferError, if_neg (by simp [h]), if_neg hfits]
  exact if_pos hrange

/-- Settles O24: the first check that fails gives the error. -/
theorem updbufChecksItsArgumentsInOrder : Obligations.UpdbufChecksItsArgumentsInOrder := by
  intro s e buf he
  refine ⟨fun h => ?_, fun h htop => ?_, fun h hspace hrange => ?_⟩
  · exact execUpdbuf_refused buf s he (bufferError_of_absent h)
  · exact execUpdbuf_refused buf s he (bufferError_of_past_top h htop)
  · exact execUpdbuf_refused buf s he (bufferError_of_out_of_range h hspace hrange)

/-! ## The empty range -/

theorem exec_updbuf_length_zero {s : State} {e : Engine} {buf : BufferOperands} (he : s.engine = some e)
    (h : InRange buf) (hzero : buf.length = 0) :
    exec (.updbuf buf) s = .next { s with responses := s.responses ++ [.ok] } := by
  have hcount : byteCount buf = 0 := by rw [byteCount, lengthInt, hzero]; rfl
  rw [exec_updbuf_inRange he h, hcount, Memory.bytes, Engine.feed_nil, List.range'_zero, List.append_nil, he.symm]

/-- Of an empty buffer only the empty range at its start is in range. -/
theorem inRange_iff_of_size_zero {buf : BufferOperands} (h : buf.present = true) (hsize : buf.size = 0) :
    InRange buf ↔ buf.offset = 0 ∧ buf.length = 0 := by
  have hempty : buf.size.toNat = 0 := by rw [hsize]; rfl
  have hbase := buf.base.isLt
  rw [← BitVec.toInt_inj, ← BitVec.toInt_inj, BitVec.ofNat_eq_ofNat, BitVec.toInt_zero, InRange]
  simp only [h, hempty, true_and]
  omega

/-- Settles O25: length 0 fits at every offset up to the size; the absent buffer is refused first. -/
theorem updbufOfLengthZeroConsumesNothing : Obligations.UpdbufOfLengthZeroConsumesNothing := by
  intro s e buf he hzero
  have hlength : buf.length.toInt = 0 := by rw [hzero]; rfl
  refine ⟨fun h hspace hoffset hsize => ?_, fun h => ?_, fun buf' => inRange_iff_of_size_zero⟩
  · exact exec_updbuf_length_zero he ⟨h, hspace, hoffset, by omega, by omega⟩ hzero
  · exact execUpdbuf_refused buf s he (bufferError_of_absent h)

/-! ## Runs of commands that consume bytes -/

/-- Only CONFIG can be ill-formed, and it consumes nothing. -/
theorem wellFormed_of_consumes {i : Instr} (h : Consumes i) : i.wellFormed = true := by
  cases i with
  | config op => exact h.elim
  | _ => rfl

theorem step_consumes {s : State} {e : Engine} {i : Instr} {rest : List HostEvent} (he : s.engine = some e)
    (h : Consumes i) (hp : s.pending = .frame (encode i) :: rest) :
    step s = .next { s with engine := some (e.feed (consumedBytes s.mem i)), pending := rest
                            responses := s.responses ++ [.ok], reads := s.reads ++ consumedAddrs i } := by
  rw [step_encoded (wellFormed_of_consumes h) hp, exec_consumes i { s with pending := rest } e he h]

/-- Frames of such commands to a configured block: the bytes of all, joined, go into the register (42 R98). -/
theorem run_consumes (cmds : List Instr) (rest : List HostEvent) {s : State} {e : Engine} (he : s.engine = some e)
    (h : ∀ i ∈ cmds, Consumes i) (hp : s.pending = (cmds.map fun i => .frame (encode i)) ++ rest) :
    Host.Core.run Sys2Proof.core cmds.length s =
      .next { s with engine := some (e.feed (cmds.flatMap (consumedBytes s.mem))), pending := rest
                     responses := s.responses ++ List.replicate cmds.length .ok
                     reads := s.reads ++ cmds.flatMap consumedAddrs } := by
  induction cmds generalizing s e with
  | nil =>
    obtain rfl : s.pending = rest := hp
    simp [Host.Core.run, ← he]
  | cons i cmds ih =>
    obtain ⟨hi, hcmds⟩ := List.forall_mem_cons.1 h
    rw [List.length_cons, run_succ_of_step (step_consumes he hi hp), ih rfl hcmds rfl]
    simp [Engine.feed_append, List.replicate_succ]

/-- Settles O26: an UPDBUF, the UPD frames over its bytes and any mixture of frames leave what the bytes they consume
give. -/
theorem bulkUpdateEqualsSingleUpdates : Obligations.BulkUpdateEqualsSingleUpdates := by
  refine ⟨fun s e buf he h => ?_, Engine.feed_append, fun s e cmds rest he h hp => run_consumes cmds rest he h hp, ?_⟩
  · have hrun := run_updFrames 0 (s.mem.bytes (firstAddr buf) (byteCount buf)) [] (e := e)
      (s := { s with pending := updFrames (s.mem.bytes (firstAddr buf) (byteCount buf)) }) he (List.append_nil _).symm
    rw [Nat.add_zero, Memory.bytes_length] at hrun
    exact ⟨_, _, exec_updbuf_inRange he h, hrun, rfl⟩
  · intro s s' t t' cmds cmds' hne hsame h h' hp hp' hbytes hrun hrun'
    obtain ⟨e, he⟩ := Option.ne_none_iff_exists'.1 hne
    cases (run_consumes cmds [] he h (by simpa using hp)).symm.trans hrun
    cases (run_consumes cmds' [] (hsame.trans he) h' (by simpa using hp')).symm.trans hrun'
    exact congrArg (fun bs => some (e.feed bs)) hbytes

end Sys2Proof.Machine
end

section
/-! PROOFS. The FIN value does not depend on the core (42_update R103): on a container d bits wider a forward
computation is the same one shifted left by d and a reflected one is the same, and the output transform undoes the
shift. -/

namespace Sys2Proof.Machine

/-! ## Values in a wider container -/

/-- A C-bit value as it lies in a container `d` bits wider: forward values are left-aligned, reflected ones
right-aligned (10 R16, R26). -/
def widenValue (refin : Bool) (d v : Nat) : Nat :=
  match refin with
  | false => v <<< d
  | true  => v

theorem align_add {C w : Nat} (hw : w ≤ C) (refin : Bool) (d v : Nat) :
    align (C + d) w refin v = widenValue refin d (align C w refin v) := by
  cases refin with
  | false =>
    rw [align, Nat.sub_add_comm hw, Nat.shiftLeft_add]
    rfl
  | true => rfl

theorem bitwiseFwd_shiftLeft {C : Nat} (hC : 8 ≤ C) (d poly r : Nat) (b : Byte) :
    bitwiseFwd (C + d) (poly <<< d) (r <<< d) b = bitwiseFwd C poly r b <<< d := by
  rw [bitwiseFwd, msbyte_add hC, ← Nat.shiftLeft_xor_distrib]
  exact ((roundFwd_shiftLeft (Nat.one_le_of_lt hC) d poly).iterate_right 8 (r ^^^ msbyte C b)).symm

/-! ## The engine on a wider core -/

/-- The engine on core `c`, whose container is `d` bits wider. -/
def Engine.widen (c : Core) (d : Nat) (e : Engine) : Engine :=
  { e with core := c, cbits := e.cbits + d, moves := e.moves + d, poly := widenValue e.refin d e.poly
           init := widenValue e.refin d e.init, reg := widenValue e.refin d e.reg }

/-- Without a table, CONFIG on a wider core creates the widened engine. -/
theorem Engine.create_eq_widen {c c' : Core} {op : ConfigOperands} (ht : op.withtable = false)
    (hw : widthNat op ≤ cbitsOf c (widthNat op)) (hle : cbitsOf c (widthNat op) ≤ cbitsOf c' (widthNat op)) :
    Engine.create c' op =
      (Engine.create c op).widen c' (cbitsOf c' (widthNat op) - cbitsOf c (widthNat op)) := by
  obtain ⟨d, hd⟩ := Nat.exists_eq_add_of_le hle
  simp only [widen, create, hd, ht, Nat.add_sub_cancel_left, align_add hw, Nat.sub_add_comm hw, Bool.false_eq_true,
    if_false]

theorem Engine.updateByte_widen {e : Engine} (ht : e.table = none) (hC : 8 ≤ e.cbits) (c : Core) (d : Nat) (b : Byte) :
    (e.widen c d).updateByte (widenValue e.refin d e.reg) b = widenValue e.refin d (e.updateByte e.reg b) := by
  cases hr : e.refin with
  | false =>
    rw [updateByte_bitwise_forward ht hr, updateByte_bitwise_forward (e := e.widen c d) ht hr]
    simp only [widen, hr]
    exact bitwiseFwd_shiftLeft hC d e.poly e.reg b
  | true =>
    rw [updateByte_bitwise_reflected ht hr, updateByte_bitwise_reflected (e := e.widen c d) ht hr]
    simp only [widen, hr]
    rfl

theorem Engine.feed_widen {e : Engine} (ht : e.table = none) (hC : 8 ≤ e.cbits) (c : Core) (d : Nat)
    (bs : List Byte) : (e.widen c d).feed bs = (e.feed bs).widen c d := by
  induction bs generalizing e with
  | nil => rfl
  | cons b bs ih =>
    have hconsume : (e.widen c d).consume b = (e.consume b).widen c d :=
      congrArg (fun r => { e.widen c d with reg := r, phase := .accumulating }) (updateByte_widen ht hC c d b)
    rw [feed_cons, hconsume, ih (e := e.consume b) ht hC, feed_cons]

/-! ## The output transform -/

/-- Where m is 0 the right shift changes nothing, so the transform needs not ask for it (43 R106). -/
theorem Engine.transform_eq (e : Engine) (v : Nat) :
    e.transform v =
      let v1 := if e.refin ≠ e.refout then rev e.cbits v else v
      let v2 := if e.refout = false then v1 >>> e.moves else v1
      v2 ^^^ e.xorout := by
  obtain hm | hm := Nat.eq_zero_or_pos e.moves
  · simp [transform, hm]
  · simp [transform, hm]

theorem shiftLeft_shiftRight_add (v m d : Nat) : v <<< d >>> (m + d) = v >>> m := by
  rw [Nat.add_comm, Nat.shiftRight_add, Nat.shiftLeft_shiftRight]

theorem rev_add_shiftLeft (C d v : Nat) : rev (C + d) (v <<< d) = rev C v := by
  have h := rev_shiftLeft (Nat.le_add_right C d) v
  rwa [Nat.add_sub_cancel_left] at h

theorem rev_add {C v : Nat} (d : Nat) (h : v < 2 ^ C) : rev (C + d) v = rev C v <<< d := by
  have h := rev_eq_rev_shiftLeft (Nat.le_add_right C d) h
  rwa [Nat.add_sub_cancel_left] at h

/-- One case per orientation of input and output; a left shift by d is undone by the reversal of the wider container or
by the longer right shift. -/
theorem Engine.finValue_widen {e : Engine} (hreg : e.reg < 2 ^ e.cbits) (c : Core) (d : Nat) :
    (e.widen c d).finValue = e.finValue := by
  simp only [finValue, transform_eq, widen]
  cases e.refin with
  | false =>
    cases e.refout with
    | false => simp [widenValue, shiftLeft_shiftRight_add]
    | true => simp [widenValue, rev_add_shiftLeft]
  | true =>
    cases e.refout with
    | false => simp [widenValue, rev_add d hreg, shiftLeft_shiftRight_add]
    | true => simp [widenValue]

/-! ## The FIN value of any two cores -/

theorem finValue_feed_create_of_le {c c' : Core} {op : ConfigOperands} (ht : op.withtable = false)
    (h : (Engine.create c op).Good) (hle : cbitsOf c (widthNat op) ≤ cbitsOf c' (widthNat op)) (bs : List Byte) :
    ((Engine.create c' op).feed bs).finValue = ((Engine.create c op).feed bs).finValue := by
  have htable : (Engine.create c op).table = none := by simp [ht]
  rw [Engine.create_eq_widen ht h.width_le_cbits hle, Engine.feed_widen htable h.eight_le_cbits,
    Engine.finValue_widen (h.feed bs).reg_lt]

/-- Settles O33: both values are those of engines without a table, of which one is the other widened. -/
theorem crcValueIsIndependentOfTheCore : Obligations.CrcValueIsIndependentOfTheCore := by
  intro op core withtable bs h h'
  rw [← crcValue_withtable_false h, ← crcValue_withtable_false h']
  have hgood := Engine.good_create (op := { op with withtable := false }) h
  have hgood' := Engine.good_create (op := { op with core := core, withtable := false }) h'
  obtain hle | hle := Nat.le_total (cbitsOf (configCore op) (widthNat op))
    (cbitsOf (configCore { op with core := core }) (widthNat op))
  · exact finValue_feed_create_of_le rfl hgood hle bs
  · exact (finValue_feed_create_of_le rfl hgood' hle bs).symm

end Sys2Proof.Machine
end

section
/-! PROOFS. FIN and RST (43_finalize_reset R105 to R112): the whole next state of each, and that frames other than a
CONFIG leave an engine which RST takes back to the one CONFIG created. -/

namespace Sys2Proof.Machine

/-! ## The next state -/

theorem exec_fin {s : State} {e : Engine} (he : s.engine = some e) :
    exec .fin s = .next { s with engine := some e.rewind
                                 responses := s.responses ++ [.okValue e.finValue e.nbytes] } :=
  withEngine_some s _ e he

theorem exec_rst {s : State} {e : Engine} (he : s.engine = some e) :
    exec .rst s = .next { s with engine := some e.rewind, responses := s.responses ++ [.ok] } :=
  withEngine_some s _ e he

/-- Settles O27: the model's transform tests `REFIN` ≠ `REFOUT`, the statement the opposite. -/
theorem finAnswersTheTransformAndResets : Obligations.FinAnswersTheTransformAndResets := by
  intro s
  refine ⟨withEngine_none s _, fun e he => ?_⟩
  rw [exec_fin he, Engine.finValue, Engine.transform, ite_not]
  rfl

/-- Settles O34: the NotConfigured check, then the rewound engine. -/
theorem rstLoadsInit : Obligations.RstLoadsInit :=
  fun s => ⟨withEngine_none s _, fun _ he => exec_rst he⟩

/-! ## Frames other than a CONFIG -/

/-- Such a frame, legal or not, changes at most `REG` and `PHASE` of the engine (10 R23). -/
theorem step_keeps_parameters {s : State} {e : Engine} {f : List Byte} {rest : List HostEvent}
    (he : s.engine = some e) (hp : s.pending = .frame f :: rest) (hf : ∀ op, decode f ≠ .ok (.config op)) :
    ∃ t r p, step s = .next t ∧ t.engine = some { e with reg := r, phase := p } ∧ t.pending = rest := by
  cases hd : decode f with
  | error err => exact ⟨_, e.reg, e.phase, step_illegal s f rest err hp hd, he, rfl⟩
  | ok i =>
    obtain ⟨e', resp, l, hx⟩ := exec_cases i { s with pending := rest }
    have hno : ∀ op, i = .config op → ¬ Admissible op := fun op hi _ => hf op (hi ▸ hd)
    obtain ⟨r, p, ht⟩ := (onlyConfigWritesTheParameterRegisters _ _ i hx hno).1 e he
    exact ⟨_, r, p, (step_decoded s f rest i hp hd).trans hx, ht, rfl⟩

theorem run_keeps_parameters (fs : List (List Byte)) {s : State} {e : Engine} (he : s.engine = some e)
    (hp : s.pending = fs.map HostEvent.frame) (hfs : ∀ f ∈ fs, ∀ op, decode f ≠ .ok (.config op)) :
    ∃ t r p, Host.Core.run Sys2Proof.core fs.length s = .next t ∧
      t.engine = some { e with reg := r, phase := p } := by
  induction fs generalizing s e with
  | nil => exact ⟨s, e.reg, e.phase, rfl, he⟩
  | cons f fs ih =>
    obtain ⟨hf, hfs⟩ := List.forall_mem_cons.1 hfs
    obtain ⟨t, r, p, hstep, ht, hpt⟩ := step_keeps_parameters he hp hf
    obtain ⟨u, r', p', hrun, hu⟩ := ih ht hpt hfs
    exact ⟨u, r', p', (run_succ_of_step hstep _).trans hrun, hu⟩

/-! ## RST against a fresh engine -/

theorem Engine.rewind_rewind (e : Engine) : e.rewind.rewind = e.rewind := rfl

/-- In phase Ready a good engine holds what RST loads (10 R11). -/
theorem Engine.Good.rewind_of_ready {e : Engine} (h : e.Good) (hready : e.phase = .ready) : e.rewind = e :=
  (congrArg₂ (fun r p => { e with reg := r, phase := p }) (h.ready_reg hready) hready).symm

/-- Settles O35: RST reads the parameters only, so it undoes whatever changed `REG` and `PHASE` alone. -/
theorem rstEqualsAFreshEngine : Obligations.RstEqualsAFreshEngine := by
  refine ⟨fun s e he => ⟨_, _, exec_rst he, exec_rst rfl, ?_⟩, fun s e he hgood hready => ?_,
    fun s op fs hadm hfs => ?_⟩
  · rw [Engine.rewind_rewind]
  · rw [exec_rst he, hgood.rewind_of_ready hready, ← he]
  · obtain ⟨u, r, p, hrun, hu⟩ := run_keeps_parameters fs
      (s := { s with engine := some (Engine.create (configCore op) op), responses := s.responses ++ [.ok]
                     pending := fs.map HostEvent.frame }) rfl rfl hfs
    exact ⟨_, u, _, execConfig_admissible op s hadm, hrun, exec_rst hu, rfl⟩

end Sys2Proof.Machine
end

section
/-! PROOFS. The output transform (43_finalize_reset R106 to R110, R113): a register that meets the invariant is the
aligned form of a w-bit value, which the transform returns, reversed within w bits when `REFOUT` is 1, XOR `XOROUT`; and
a reflected computation is the forward one with the container and every input byte reversed. -/

namespace Sys2Proof.Machine

/-! ## The transform of an aligned value -/

/-- The register invariant (10 R26) describes exactly the values that alignment makes. -/
theorem Placed.exists_align {refin : Bool} {C w v : Nat} (h : Placed refin C w v) (hw : w ≤ C) :
    ∃ u < 2 ^ w, v = align C w refin u := by
  cases refin with
  | false =>
    obtain ⟨hlt, u, rfl⟩ := placed_forward_iff.1 h
    have hu : u < 2 ^ w := by
      refine Nat.lt_of_mul_lt_mul_left (a := 2 ^ (C - w)) ?_
      rwa [← pow_add, Nat.sub_add_cancel hw]
    exact ⟨u, hu, by rw [align, trunc_of_lt hu, Nat.shiftLeft_eq, Nat.mul_comm]⟩
  | true =>
    refine ⟨rev w v, rev_lt w v, ?_⟩
    rw [align, trunc_of_lt (rev_lt w v), rev_rev (placed_reflected_iff.1 h)]

/-- The transform undoes the alignment and reverses the w bits when the output is reflected (43 R106, 40 R66). -/
theorem Engine.transform_align {e : Engine} (hw : e.width ≤ e.cbits) (hm : e.moves = e.cbits - e.width) {u : Nat}
    (hu : u < 2 ^ e.width) :
    e.transform (align e.cbits e.width e.refin u) =
      (if e.refout = true then rev e.width u else u) ^^^ e.xorout := by
  simp only [transform_eq, hm]
  cases e.refin with
  | false =>
    cases e.refout with
    | false => simp [align, trunc_of_lt hu, Nat.shiftLeft_shiftRight]
    | true => simp [align, trunc_of_lt hu, rev_shiftLeft hw]
  | true =>
    cases e.refout with
    | false =>
      simp [align, trunc_of_lt hu, rev_eq_rev_shiftLeft hw (rev_lt _ u), rev_rev hu, Nat.shiftLeft_shiftRight]
    | true => simp [align, trunc_of_lt hu]

/-- The same engine with another `REFOUT` (10 R19). -/
def Engine.withRefout (e : Engine) (refout : Bool) : Engine := { e with refout := refout }

/-- The FIN value of a good engine under either `REFOUT`, from the one w-bit value its register holds. -/
theorem Engine.Good.exists_finValue_withRefout {e : Engine} (h : e.Good) :
    ∃ u < 2 ^ e.width, ∀ refout, (e.withRefout refout).finValue =
      (if refout = true then rev e.width u else u) ^^^ e.xorout := by
  obtain ⟨u, hu, hreg⟩ := h.reg_placed.exists_align h.width_le_cbits
  have htransform := fun refout => transform_align (e := e.withRefout refout) h.width_le_cbits h.moves_eq hu
  exact ⟨u, hu, fun refout => (congrArg (e.withRefout refout).transform hreg).trans (htransform refout)⟩

/-! ## The FIN value fits -/

theorem Engine.Good.finValue_lt {e : Engine} (h : e.Good) : e.finValue < 2 ^ e.width := by
  obtain ⟨u, hu, hfin⟩ := h.exists_finValue_withRefout
  refine (hfin e.refout).trans_lt (Nat.xor_lt_two_pow ?_ h.xorout_lt)
  split
  · exact rev_lt _ u
  · exact hu

theorem capacity_le (c : Core) : capacity c ≤ 524280 := by
  cases c with
  | c8 => exact show 8 ≤ 524280 by decide
  | c16 => exact show 16 ≤ 524280 by decide
  | c64 => exact show 64 ≤ 524280 by decide
  | multi => exact Config.wmax_le

theorem Engine.two_pow_width_le (e : Engine) : 2 ^ e.width ≤ 256 ^ e.nbytes := by
  rw [show 256 = 2 ^ 8 from rfl, ← pow_mul, nbytes]
  exact Nat.pow_le_pow_right (by decide) (by omega)

/-- Settles O28: both w-bit operands of the last XOR are below 2^w, and no width exceeds WMAX. -/
theorem finValueFitsTheWidth : Obligations.FinValueFitsTheWidth := by
  intro s e he hgood
  have hwidth : e.width ≤ 524280 := hgood.width_le.trans (capacity_le e.core)
  refine ⟨e.finValue, e.nbytes, _, exec_fin he, rfl, hgood.finValue_lt,
    hgood.finValue_lt.trans_le e.two_pow_width_le, ?_⟩
  rw [Engine.nbytes]
  omega

/-! ## FIN without bytes -/

/-- The register of a fresh engine is `INIT`, the aligned operand (41 R80, R86). -/
theorem crcValue_nil {op : ConfigOperands} (h : Admissible op) :
    crcValue op [] =
      (if op.refout = true then rev (widthNat op) (trunc (widthNat op) op.init) else trunc (widthNat op) op.init) ^^^
        trunc (widthNat op) op.xorout := by
  have hgood := Engine.good_create h
  have hinit : (Engine.create (configCore op) op).reg =
      align (cbitsOf (configCore op) (widthNat op)) (widthNat op) op.refin (trunc (widthNat op) op.init) :=
    align_congr (trunc_trunc _ _).symm _ _
  rw [crcValue, Engine.feed_nil, Engine.finValue, hinit]
  exact Engine.transform_align hgood.width_le_cbits hgood.moves_eq (trunc_lt _ _)

/-- Settles O29: the first two clauses are the value of a fresh engine; after a FIN the register is `INIT`. -/
theorem finWithoutBytesIsTheTransformOfInit : Obligations.FinWithoutBytesIsTheTransformOfInit := by
  refine ⟨fun op h hrefout => ?_, fun op h hrefout => ?_, fun s e he => ?_⟩
  · rw [crcValue_nil h, hrefout, if_neg Bool.false_ne_true]
  · rw [crcValue_nil h, hrefout, if_pos rfl]
  · exact ⟨_, _, exec_fin he, exec_fin rfl, rfl, rfl⟩

/-! ## Reflected output -/

theorem Engine.withRefout_create (c : Core) (op : ConfigOperands) (refout : Bool) :
    (Engine.create c op).withRefout refout = Engine.create c { op with refout := refout } := rfl

theorem Engine.feed_withRefout (e : Engine) (refout : Bool) (bs : List Byte) :
    (e.withRefout refout).feed bs = (e.feed bs).withRefout refout := by
  induction bs generalizing e with
  | nil => rfl
  | cons b bs ih => exact ih (e.consume b)

theorem crcValue_refout (op : ConfigOperands) (refout : Bool) (bs : List Byte) :
    crcValue { op with refout := refout } bs =
      (((Engine.create (configCore op) op).feed bs).withRefout refout).finValue := by
  rw [← Engine.feed_withRefout, Engine.withRefout_create]
  rfl

theorem Engine.Good.finValue_withRefout_true {e : Engine} (h : e.Good) :
    (e.withRefout true).finValue = rev e.width ((e.withRefout false).finValue ^^^ e.xorout) ^^^ e.xorout := by
  obtain ⟨u, -, hfin⟩ := h.exists_finValue_withRefout
  rw [hfin, hfin, if_pos rfl, if_neg Bool.false_ne_true, Nat.xor_xor_cancel_right]

theorem Engine.feed_width (e : Engine) (bs : List Byte) : (e.feed bs).width = e.width := by
  obtain ⟨r, p, h⟩ := e.feed_frame bs
  rw [h]

theorem Engine.feed_xorout (e : Engine) (bs : List Byte) : (e.feed bs).xorout = e.xorout := by
  obtain ⟨r, p, h⟩ := e.feed_frame bs
  rw [h]

theorem Engine.feed_refin (e : Engine) (bs : List Byte) : (e.feed bs).refin = e.refin := by
  obtain ⟨r, p, h⟩ := e.feed_frame bs
  rw [h]

/-- Settles O32: `REFOUT` plays no part before FIN, so both engines hold the same register, and only the reversal of
its w-bit value differs. -/
theorem refoutMeansBitReversedOutput : Obligations.RefoutMeansBitReversedOutput := by
  intro op bs h x
  have hgood := (Engine.good_create h).feed bs
  rw [crcValue_refout, crcValue_refout, hgood.finValue_withRefout_true, Engine.feed_width, Engine.feed_xorout]
  rfl

/-! ## Reflected input -/

theorem botBit_rev {C : Nat} (hC : 1 ≤ C) (t : Nat) : botBit (rev C t) = topBit C t := by
  rw [botBit, testBit_rev, decide_eq_true (Nat.lt_of_succ_le hC), Bool.true_and]
  rfl

/-- Both sides move bit C - 2 - i to place i. -/
theorem shr1_rev (C t : Nat) : shr1 (rev C t) = rev C (shl1 C t) := by
  refine Nat.eq_of_testBit_eq fun i => ?_
  have hplace : C - 1 - (i + 1) = C - 1 - i - 1 := by omega
  have hrange : i + 1 < C ↔ i < C ∧ 1 ≤ C - 1 - i ∧ C - 1 - i < C := by omega
  rw [testBit_shr1, testBit_rev, testBit_rev, testBit_shl1, hplace, ← Bool.and_assoc, ← Bool.decide_and,
    decide_eq_decide.2 hrange]

/-- A reflected round is a forward round on reversed register and POLY. -/
theorem roundFwd_rev {C : Nat} (hC : 1 ≤ C) (poly : Nat) :
    Function.Semiconj (rev C) (roundFwd C poly) (roundRef (rev C poly)) := fun t => by
  rw [roundFwd, roundRef, botBit_rev hC, shr1_rev]
  split
  · exact rev_xor C _ _
  · rfl

theorem rev_msbyte_revByte {C : Nat} (hC : 8 ≤ C) (b : Byte) : rev C (msbyte C (revByte b)) = lsbyte b := by
  rw [msbyte, rev_shiftLeft hC, revByte, BitVec.toNat_ofNat, Nat.mod_eq_of_lt (rev_lt 8 _), rev_rev b.isLt]
  rfl

theorem bitwiseRef_rev {C : Nat} (hC : 8 ≤ C) (poly r : Nat) (b : Byte) :
    bitwiseRef (rev C poly) (rev C r) b = rev C (bitwiseFwd C poly r (revByte b)) := by
  rw [bitwiseRef, ← rev_msbyte_revByte hC, ← rev_xor]
  exact ((roundFwd_rev (Nat.one_le_of_lt hC) poly).iterate_right 8 (r ^^^ msbyte C (revByte b))).symm

/-- The reflected engine that mirrors a forward one: the register, `POLY` and `INIT` reversed across the container. -/
def Engine.mirror (e : Engine) : Engine :=
  { e with refin := true, poly := rev e.cbits e.poly, init := rev e.cbits e.init, reg := rev e.cbits e.reg }

/-- Without a table, CONFIG with `REFIN` 1 creates the mirror of the engine it creates with `REFIN` 0. -/
theorem Engine.create_eq_mirror {c : Core} {op : ConfigOperands} (ht : op.withtable = false)
    (hw : widthNat op ≤ cbitsOf c (widthNat op)) :
    Engine.create c { op with refin := true } = (Engine.create c { op with refin := false }).mirror := by
  have halign := align_reflected_eq_rev_forward hw
  simp only [widthNat, widthInt] at halign
  simp only [mirror, create, widthNat, widthInt, ht, halign, Bool.false_eq_true, if_false]

theorem Engine.consume_mirror {e : Engine} (ht : e.table = none) (hr : e.refin = false) (hC : 8 ≤ e.cbits) (b : Byte) :
    e.mirror.consume b = (e.consume (revByte b)).mirror := by
  have hreg : e.mirror.updateByte e.mirror.reg b = rev e.cbits (e.updateByte e.reg (revByte b)) := by
    rw [updateByte_bitwise_reflected (e := e.mirror) ht rfl, updateByte_bitwise_forward ht hr]
    exact bitwiseRef_rev hC e.poly e.reg b
  exact congrArg (fun r => { e.mirror with reg := r, phase := .accumulating }) hreg

theorem Engine.feed_mirror {e : Engine} (ht : e.table = none) (hr : e.refin = false) (hC : 8 ≤ e.cbits)
    (bs : List Byte) : e.mirror.feed bs = (e.feed (bs.map revByte)).mirror := by
  induction bs generalizing e with
  | nil => rfl
  | cons b bs ih =>
    rw [feed_cons, consume_mirror ht hr hC, List.map_cons, feed_cons]
    exact ih (e := e.consume (revByte b)) ht hr hC

/-- The transform reverses the container of exactly one of the two engines, whichever `REFOUT` is. -/
theorem Engine.finValue_mirror {e : Engine} (hr : e.refin = false) (hreg : e.reg < 2 ^ e.cbits) :
    e.mirror.finValue = e.finValue := by
  simp only [finValue, transform_eq, mirror, hr]
  cases e.refout with
  | false => simp [rev_rev hreg]
  | true => simp

theorem Engine.Good.finValue_feed_mirror {e : Engine} (h : e.Good) (ht : e.table = none) (hr : e.refin = false)
    (bs : List Byte) : (e.mirror.feed bs).finValue = (e.feed (bs.map revByte)).finValue := by
  rw [feed_mirror ht hr h.eight_le_cbits, finValue_mirror ((feed_refin e _).trans hr) (h.feed _).reg_lt]

theorem crcValue_refin_true {op : ConfigOperands} (h : Admissible op) (ht : op.withtable = false) (bs : List Byte) :
    crcValue { op with refin := true } bs = crcValue { op with refin := false } (bs.map revByte) := by
  have hgood := Engine.good_create (op := { op with refin := false }) h
  have htable : (Engine.create (configCore op) { op with refin := false }).table = none := by simp [ht]
  calc crcValue { op with refin := true } bs
    _ = ((Engine.create (configCore op) { op with refin := false }).mirror.feed bs).finValue :=
      congrArg (fun e => (Engine.feed e bs).finValue) (Engine.create_eq_mirror ht (le_cbitsOf h.2))
    _ = crcValue { op with refin := false } (bs.map revByte) := hgood.finValue_feed_mirror htable rfl bs

/-- Settles O31: without a table, which has no effect on the value, the reflected computation mirrors the forward one
on the reversed bytes. -/
theorem refinMeansBitReversedInputBytes : Obligations.RefinMeansBitReversedInputBytes := by
  intro op bs h
  rw [← crcValue_withtable_false (op := { op with refin := true }) h,
    ← crcValue_withtable_false (op := { op with refin := false }) h]
  exact crcValue_refin_true (op := { op with withtable := false }) h rfl bs

end Sys2Proof.Machine
end

section
/-! PROOFS. The effect of a command (43_finalize_reset R114): the engine before fixes whether the command is
refused, and what it leaves and answers, but for the bytes that a command in range consumes. -/

namespace Sys2Proof.Machine

/-- The outcome of a command in every state with the engine `e`: the same refusal, the same new engine and
response, or bytes to consume. -/
theorem exec_uniform_cases (i : Instr) (e : Option Engine) :
    (∃ err, ∀ s : State, s.engine = e → exec i s = raise err s) ∨
    (∃ e' r, ∀ s : State, s.engine = e → exec i s = answer r (s.setEngine e')) ∨
    (∃ e', e = some e' ∧ Consumes i) := by
  cases i with
  | config op =>
    cases hc : configError op with
    | some err => exact .inl ⟨err, fun s _ => execConfig_refused op s hc⟩
    | none =>
      have hadm := (configError_eq_none_iff op).1 hc
      exact .inr (.inl ⟨_, _, fun s _ => execConfig_admissible op s hadm⟩)
  | upd b =>
    cases e with
    | none => exact .inl ⟨_, fun s => withEngine_none s _⟩
    | some e => exact .inr (.inr ⟨e, rfl, trivial⟩)
  | updbuf buf =>
    cases e with
    | none => exact .inl ⟨_, fun s => withEngine_none s _⟩
    | some e =>
      cases hb : bufferError buf with
      | some err => exact .inl ⟨err, fun s he => execUpdbuf_refused buf s he hb⟩
      | none => exact .inr (.inr ⟨e, rfl, (bufferError_eq_none_iff buf).1 hb⟩)
  | fin =>
    cases e with
    | none => exact .inl ⟨_, fun s => withEngine_none s _⟩
    | some e => exact .inr (.inl ⟨_, _, fun s => exec_fin⟩)
  | rst =>
    cases e with
    | none => exact .inl ⟨_, fun s => withEngine_none s _⟩
    | some e => exact .inr (.inl ⟨_, _, fun s => exec_rst⟩)

/-- Memories that agree on the range of an UPDBUF give it the same bytes; the other commands read none. -/
theorem consumedBytes_congr {i : Instr} {m m' : Memory}
    (h : ∀ buf, i = .updbuf buf → ∀ k < byteCount buf, m'.read (firstAddr buf + k) = m.read (firstAddr buf + k)) :
    consumedBytes m' i = consumedBytes m i := by
  cases i with
  | updbuf buf =>
    rw [consumedBytes, consumedBytes, Memory.bytes_eq_map, Memory.bytes_eq_map]
    refine List.map_congr_left fun a ha => ?_
    obtain ⟨k, hk, rfl⟩ := List.mem_range'.1 ha
    simpa using h buf rfl k hk
  | _ => rfl

/-- Settles O44: the two states share the engine, so the outcome differs at most in the bytes consumed, and
these agree. -/
theorem responsesDependOnStateFrameAndBytesRead : Obligations.ResponsesDependOnStateFrameAndBytesRead := by
  intro s s' i he hmem
  obtain ⟨err, hx⟩ | ⟨e, r, hx⟩ | ⟨e, hs, hcons⟩ := exec_uniform_cases i s.engine
  · refine ⟨s.engine, .error err, [], ?_, ?_⟩
    · simp [hx s rfl, raise_eq]
    · simp [hx s' he, raise_eq, ← he]
  · refine ⟨some e, r, [], ?_, ?_⟩
    · simp [hx s rfl, answer_eq, State.setEngine]
    · simp [hx s' he, answer_eq, State.setEngine]
  · refine ⟨some (e.feed (consumedBytes s.mem i)), .ok, consumedAddrs i, exec_consumes i s e hs hcons, ?_⟩
    rw [exec_consumes i s' e (he.trans hs) hcons, consumedBytes_congr hmem]

end Sys2Proof.Machine
end

section
/-! PROOFS. The operations on shard arrays are those of the container (44_multiword R116 to R120, R125). One equation
for the bits of the value of an array with a shard in front or at the end; every law then compares bits, by induction
over the array. -/

namespace Sys2Proof.Machine

/-! ## The value of an array -/

@[simp] theorem Shards.val_nil : val [] = 0 := rfl

@[simp] theorem Shards.val_singleton (b : Byte) : val [b] = b.toNat := by simp [val, beNat]

theorem Shards.val_lt (sh : Shards) : val sh < 2 ^ (8 * sh.length) := by
  rw [pow_mul]
  exact beNat_lt sh

theorem Shards.val_append (a b : Shards) : val (a ++ b) = 2 ^ (8 * b.length) * val a + val b := by
  induction b using List.reverseRecOn with
  | nil => simp
  | append_singleton b x ih =>
    have hx : ∀ f, val (f ++ [x]) = val f * 256 + x.toNat := fun f => beNat_append_singleton f x
    rw [← List.append_assoc, hx, hx, ih, List.length_append, List.length_singleton, Nat.mul_add, pow_add]
    ring

theorem Shards.testBit_val_append (a b : Shards) (i : Nat) :
    (val (a ++ b)).testBit i =
      if i < 8 * b.length then (val b).testBit i else (val a).testBit (i - 8 * b.length) := by
  rw [val_append, Nat.testBit_two_pow_mul_add _ (val_lt b)]

/-- The bits of shard 0 are the highest (44 R115). -/
theorem Shards.testBit_val_cons (a : Byte) (sh : Shards) (i : Nat) :
    (val (a :: sh)).testBit i =
      if i < 8 * sh.length then (val sh).testBit i else a.getLsbD (i - 8 * sh.length) := by
  rw [← List.singleton_append, testBit_val_append, val_singleton]
  rfl

/-- The bits of the last shard are the lowest (44 R115). -/
theorem Shards.testBit_val_concat (sh : Shards) (b : Byte) (i : Nat) :
    (val (sh ++ [b])).testBit i = if i < 8 then b.getLsbD i else (val sh).testBit (i - 8) := by
  rw [testBit_val_append, val_singleton]
  rfl

/-- Shard 0 holds the top byte of the container; an empty array reads as zero. -/
theorem Shards.getLsbD_headD (sh : Shards) (j : Nat) :
    (sh.headD 0).getLsbD j = (decide (j < 8) && (val sh).testBit (8 * sh.length - 8 + j)) := by
  cases sh with
  | nil => simp
  | cons a sh =>
    have hplace : 8 * (sh.length + 1) - 8 + j - 8 * sh.length = j := by omega
    have hhigh : ¬ 8 * (sh.length + 1) - 8 + j < 8 * sh.length := by omega
    rw [List.headD_cons, List.length_cons, testBit_val_cons, if_neg hhigh, hplace]
    obtain hj | hj := Nat.lt_or_ge j 8
    · simp [hj]
    · simp [BitVec.getLsbD_of_ge a j hj]

/-- The last shard holds the bottom byte of the container; an empty array reads as zero. -/
theorem Shards.getLsbD_getLastD (sh : Shards) (j : Nat) :
    (sh.getLastD 0).getLsbD j = (decide (j < 8) && (val sh).testBit j) := by
  cases sh using List.reverseRecOn with
  | nil => simp
  | append_singleton sh b =>
    rw [List.getLastD_concat, testBit_val_concat]
    obtain hj | hj := Nat.lt_or_ge j 8
    · simp [hj]
    · simp [BitVec.getLsbD_of_ge b j hj, Nat.not_lt.2 hj]

/-! ## Shifts -/

/-- A shifted shard is eight bits of the two shards it is made of, read from bit k up. -/
theorem getLsbD_shifted_shard {k : Nat} (hk : k ≤ 8) (above a : Byte) (j : Nat) :
    ((a >>> k) ||| (above <<< (8 - k))).getLsbD j =
      (decide (j < 8) && if k + j < 8 then a.getLsbD (k + j) else above.getLsbD (k + j - 8)) := by
  rw [BitVec.getLsbD_or, BitVec.getLsbD_ushiftRight, BitVec.getLsbD_shiftLeft]
  obtain hj | hj := Nat.lt_or_ge (k + j) 8
  · have hbelow : j < 8 - k := by omega
    have hin : j < 8 := by omega
    simp [hj, hbelow, hin]
  · have habove : ¬ j < 8 - k := by omega
    have hplace : j - (8 - k) = k + j - 8 := by omega
    simp [BitVec.getLsbD_of_ge a _ hj, Nat.not_lt.2 hj, habove, hplace]

theorem Shards.length_shrFrom (k : Nat) (above : Byte) (sh : Shards) : (shrFrom k above sh).length = sh.length := by
  induction sh generalizing above with
  | nil => rfl
  | cons a sh ih => simp [shrFrom, ih]

/-- Each shard takes its high k bits from the bottom of the shard above it, shard 0 from `above` (44 R120). -/
theorem Shards.val_shrFrom {k : Nat} (hk : k ≤ 8) (above : Byte) (sh : Shards) :
    val (shrFrom k above sh) = (val (above :: sh) >>> k) % 2 ^ (8 * sh.length) := by
  refine Nat.eq_of_testBit_eq fun i => ?_
  rw [Nat.testBit_mod_two_pow, Nat.testBit_shiftRight]
  induction sh generalizing above i with
  | nil => simp [shrFrom]
  | cons a sh ih =>
    rw [shrFrom, testBit_val_cons, length_shrFrom, ih, testBit_val_cons above, List.length_cons]
    obtain hi | hi := Nat.lt_or_ge i (8 * sh.length)
    · have hlow : k + i < 8 * (sh.length + 1) := by omega
      have hin : i < 8 * (sh.length + 1) := by omega
      simp [hi, hlow, hin]
    · obtain ⟨j, rfl⟩ := Nat.exists_eq_add_of_le hi
      have hin : 8 * sh.length + j < 8 * (sh.length + 1) ↔ j < 8 := by omega
      have hlow : k + (8 * sh.length + j) < 8 * (sh.length + 1) ↔ k + j < 8 := by omega
      have hhigh : ¬ k + (8 * sh.length + j) < 8 * sh.length := by omega
      have hplace : k + (8 * sh.length + j) - 8 * sh.length = k + j := by omega
      have htop : k + (8 * sh.length + j) - 8 * (sh.length + 1) = k + j - 8 := by omega
      rw [if_neg (Nat.not_lt.2 hi), Nat.add_sub_cancel_left, getLsbD_shifted_shard hk, testBit_val_cons]
      simp only [hin, hlow, hhigh, hplace, htop, if_false]

theorem Shards.val_zero_cons (sh : Shards) : val (0 :: sh) = val sh := by
  rw [← List.singleton_append, val_append, val_singleton]
  simp

theorem Shards.val_concat_zero (sh : Shards) : val (sh ++ [0]) = val sh <<< 8 := by
  simp [val_append, Nat.shiftLeft_eq, Nat.mul_comm]

theorem Shards.length_shr (k : Nat) (sh : Shards) : (shr k sh).length = sh.length := length_shrFrom k 0 sh

theorem Shards.val_shr {k : Nat} (hk : k ≤ 8) (sh : Shards) : val (shr k sh) = val sh >>> k := by
  rw [shr, val_shrFrom hk, val_zero_cons]
  exact Nat.mod_eq_of_lt ((Nat.shiftRight_le _ k).trans_lt (val_lt sh))

/-- A left shift by k is the right shift by 8 - k of the array with one zero shard appended: a shard moves one place
up and 8 - k bits back down. -/
theorem Shards.shl_cons (k : Nat) (hk : k ≤ 8) (a : Byte) (sh : Shards) :
    shl k (a :: sh) = shrFrom (8 - k) a (sh ++ [0]) := by
  induction sh generalizing a with
  | nil => simp [shl, shrFrom, Nat.sub_sub_self hk]
  | cons b sh ih =>
    rw [shl, ih, List.cons_append, shrFrom, Nat.sub_sub_self hk, BitVec.or_comm]
    rfl

theorem Shards.length_shl (k : Nat) (sh : Shards) : (shl k sh).length = sh.length := by
  induction sh with
  | nil => rfl
  | cons a sh ih => simp [shl, ih]

theorem Shards.val_shl {k : Nat} (hk : k ≤ 8) (sh : Shards) :
    val (shl k sh) = (val sh <<< k) % 2 ^ (8 * sh.length) := by
  cases sh with
  | nil => simp [shl]
  | cons a sh =>
    have hback : val (a :: sh) <<< 8 >>> (8 - k) = val (a :: sh) <<< k :=
      calc val (a :: sh) <<< 8 >>> (8 - k)
        _ = val (a :: sh) <<< (k + (8 - k)) >>> (8 - k) := by rw [Nat.add_sub_of_le hk]
        _ = val (a :: sh) <<< k := by rw [Nat.shiftLeft_add, Nat.shiftLeft_shiftRight]
    rw [shl_cons k hk, val_shrFrom (Nat.sub_le 8 k), ← List.cons_append, val_concat_zero, hback]
    simp

/-- The one-bit left shift is the shift by k for k = 1 (44 R116, R120). -/
theorem Shards.shl1_eq_shl (sh : Shards) : shl1 sh = shl 1 sh := by
  have hcarry : ∀ b : Byte, (if b.getLsbD 7 then 1 else 0 : Byte) = b >>> 7 := by decide
  induction sh with
  | nil => rfl
  | cons a sh ih => rw [shl1, shl, ih, hcarry]

/-- The one-bit right shift is the shift by k for k = 1 (44 R117, R120). -/
theorem Shards.shr1From_eq_shrFrom (above : Byte) (sh : Shards) :
    shr1From (above.getLsbD 0) sh = shrFrom 1 above sh := by
  have hcarry : ∀ b : Byte, (if b.getLsbD 0 then 0x80 else 0 : Byte) = b <<< 7 := by decide
  induction sh generalizing above with
  | nil => rfl
  | cons a sh ih => rw [shr1From, shrFrom, ih, hcarry]

theorem Shards.shr1_eq_shr (sh : Shards) : shr1 sh = shr 1 sh := shr1From_eq_shrFrom 0 sh

/-- Settles O47: a one-bit shift is the shift by k for k = 1, and the left shift is a right shift of a longer array. -/
theorem shardShiftsAreContainerShifts : Obligations.ShardShiftsAreContainerShifts := by
  intro sh
  rw [Shards.shl1_eq_shl, Shards.shr1_eq_shr]
  exact ⟨Shards.val_shl (by decide) sh, Shards.length_shl 1 sh, Shards.val_shr (by decide) sh, Shards.length_shr 1 sh,
    fun k hk => ⟨Shards.val_shl (Nat.le_succ_of_le hk) sh, Shards.val_shr (Nat.le_succ_of_le hk) sh,
      Shards.length_shl k sh, Shards.length_shr k sh⟩⟩

/-! ## XOR, reversal, bit tests and truncation -/

theorem Shards.length_xor {a b : Shards} (h : a.length = b.length) : (xor a b).length = a.length := by
  simp [xor, h]

theorem Shards.val_xor {a b : Shards} (h : a.length = b.length) : val (xor a b) = val a ^^^ val b := by
  refine Nat.eq_of_testBit_eq fun i => ?_
  rw [Nat.testBit_xor]
  induction a generalizing b with
  | nil =>
    rw [List.eq_nil_of_length_eq_zero h.symm]
    simp [xor]
  | cons x a ih =>
    cases b with
    | nil => cases h
    | cons y b =>
      have h : a.length = b.length := Nat.succ.inj h
      have hcons : xor (x :: a) (y :: b) = (x ^^^ y) :: xor a b := rfl
      rw [hcons, testBit_val_cons, testBit_val_cons, testBit_val_cons, length_xor h, ih h, ← h]
      split
      · rfl
      · rw [BitVec.getLsbD_xor]

theorem getLsbD_revByte (b : Byte) (i : Nat) : (revByte b).getLsbD i = (decide (i < 8) && b.getLsbD (7 - i)) := by
  rw [revByte, BitVec.getLsbD_ofNat, testBit_rev, ← Bool.and_assoc, Bool.and_self]
  rfl

theorem Shards.length_rev (sh : Shards) : (rev sh).length = sh.length := by simp [rev]

theorem Shards.rev_cons (a : Byte) (sh : Shards) : rev (a :: sh) = rev sh ++ [revByte a] := by simp [rev]

/-- Shard 0 becomes the last one, so its bits move from the top of the container to the bottom (44 R119). -/
theorem Shards.val_rev (sh : Shards) : val (rev sh) = Machine.rev (8 * sh.length) (val sh) := by
  refine Nat.eq_of_testBit_eq fun i => ?_
  rw [testBit_rev]
  induction sh generalizing i with
  | nil => simp [rev]
  | cons a sh ih =>
    rw [rev_cons, testBit_val_concat, testBit_val_cons, ih, getLsbD_revByte, List.length_cons]
    obtain hi | hi := Nat.lt_or_ge i 8
    · have hin : i < 8 * (sh.length + 1) := by omega
      have htop : ¬ 8 * (sh.length + 1) - 1 - i < 8 * sh.length := by omega
      have hplace : 8 * (sh.length + 1) - 1 - i - 8 * sh.length = 7 - i := by omega
      simp [hi, hin, htop, hplace]
    · have hplace : 8 * (sh.length + 1) - 1 - i = 8 * sh.length - 1 - (i - 8) := by omega
      have hin : i < 8 * (sh.length + 1) ↔ i - 8 < 8 * sh.length := by omega
      rw [if_neg (Nat.not_lt.2 hi), hplace, decide_eq_decide.2 hin]
      by_cases hj : i - 8 < 8 * sh.length
      · have hlow : 8 * sh.length - 1 - (i - 8) < 8 * sh.length := by omega
        rw [if_pos hlow]
      · simp [hj]

theorem Shards.topBit_eq (sh : Shards) : topBit sh = Machine.topBit (8 * sh.length) (val sh) := by
  rw [topBit, getLsbD_headD, Machine.topBit]
  cases sh with
  | nil => rfl
  | cons a sh => rfl

theorem Shards.botBit_eq (sh : Shards) : botBit sh = Machine.botBit (val sh) := getLsbD_getLastD sh 0

theorem Shards.length_trunc (m : Nat) (sh : Shards) : (trunc m sh).length = sh.length := by
  cases sh with
  | nil => rfl
  | cons a sh => rfl

theorem Shards.val_trunc {m : Nat} (hm : m ≤ 7) {sh : Shards} (h : sh ≠ []) :
    val (trunc m sh) = Machine.trunc (8 * sh.length - m) (val sh) := by
  refine Nat.eq_of_testBit_eq fun i => ?_
  obtain ⟨a, sh, rfl⟩ := List.exists_cons_of_ne_nil h
  rw [trunc, testBit_val_cons, testBit_trunc, testBit_val_cons, List.length_cons, BitVec.getLsbD_ofNat,
    Nat.testBit_mod_two_pow]
  obtain hi | hi := Nat.lt_or_ge i (8 * sh.length)
  · have hin : i < 8 * (sh.length + 1) - m := by omega
    simp [hi, hin]
  · have hin : i < 8 * (sh.length + 1) - m ↔ i - 8 * sh.length < 8 ∧ i - 8 * sh.length < 8 - m := by omega
    rw [if_neg (Nat.not_lt.2 hi), if_neg (Nat.not_lt.2 hi), ← Bool.and_assoc, ← Bool.decide_and,
      decide_eq_decide.2 hin]
    rfl

/-- Settles O48: each operation sets bit i of the value as the container's operation does. -/
theorem shardXorAndReversalAreContainerOperations : Obligations.ShardXorAndReversalAreContainerOperations :=
  ⟨fun _ _ h => ⟨Shards.val_xor h, Shards.length_xor h⟩, fun sh => ⟨Shards.val_rev sh, Shards.length_rev sh⟩,
    fun sh _ => ⟨Shards.topBit_eq sh, Shards.botBit_eq sh⟩, fun _ _ h hm => Shards.val_trunc hm h⟩

end Sys2Proof.Machine
end

section
/-! PROOFS. The byte update on shards (44_multiword R121 to R123, R125): each of its operations takes arrays that hold
values of the container to an array that holds what the container's operation makes of them. -/

namespace Sys2Proof.Machine

/-! ## Arrays that hold a value -/

/-- The array has `S` shards and its value is `v` (44 R115). -/
structure Shards.Holds (S : Nat) (sh : Shards) (v : Nat) : Prop where
  length_eq : sh.length = S
  val_eq : val sh = v

section Holds

variable {S : Nat} {sh poly : Shards} {v p : Nat}

theorem Shards.Holds.ne_nil (h : Holds S sh v) (hS : 1 ≤ S) : sh ≠ [] :=
  List.ne_nil_of_length_pos (h.length_eq.symm ▸ hS)

theorem Shards.holds_replicate_zero (S : Nat) : Holds S (List.replicate S 0) 0 := by
  refine ⟨List.length_replicate, ?_⟩
  induction S with
  | zero => rfl
  | succ S ih => rw [List.replicate_succ, val_zero_cons, ih]

theorem Shards.Holds.xor {a b : Shards} {x y : Nat} (ha : Holds S a x) (hb : Holds S b y) :
    Holds S (Shards.xor a b) (x ^^^ y) := by
  have hlen : a.length = b.length := ha.length_eq.trans hb.length_eq.symm
  exact ⟨(length_xor hlen).trans ha.length_eq, by rw [val_xor hlen, ha.val_eq, hb.val_eq]⟩

theorem Shards.Holds.rev (h : Holds S sh v) : Holds S (Shards.rev sh) (Machine.rev (8 * S) v) := by
  obtain ⟨rfl, rfl⟩ := h
  exact ⟨length_rev sh, val_rev sh⟩

theorem Shards.Holds.shl {k : Nat} (hk : k ≤ 8) (h : Holds S sh v) :
    Holds S (Shards.shl k sh) ((v <<< k) % 2 ^ (8 * S)) := by
  obtain ⟨rfl, rfl⟩ := h
  exact ⟨length_shl k sh, val_shl hk sh⟩

theorem Shards.Holds.shr {k : Nat} (hk : k ≤ 8) (h : Holds S sh v) : Holds S (Shards.shr k sh) (v >>> k) := by
  obtain ⟨rfl, rfl⟩ := h
  exact ⟨length_shr k sh, val_shr hk sh⟩

theorem Shards.Holds.trunc {m : Nat} (hS : 1 ≤ S) (hm : m ≤ 7) (h : Holds S sh v) :
    Holds S (Shards.trunc m sh) (Machine.trunc (8 * S - m) v) := by
  have hne := h.ne_nil hS
  obtain ⟨rfl, rfl⟩ := h
  exact ⟨length_trunc m sh, val_trunc hm hne⟩

theorem Shards.Holds.ite {c : Prop} [Decidable c] {a b : Shards} {x y : Nat} (ha : Holds S a x) (hb : Holds S b y) :
    Holds S (if c then a else b) (if c then x else y) := by
  split
  · exact ha
  · exact hb

/-! ## The byte that enters -/

theorem Shards.Holds.xorFirst (hS : 1 ≤ S) (h : Holds S sh v) (b : Byte) :
    Holds S (Shards.xorFirst b sh) (v ^^^ msbyte (8 * S) b) := by
  obtain ⟨a, sh, rfl⟩ := List.exists_cons_of_ne_nil (h.ne_nil hS)
  obtain ⟨rfl, rfl⟩ := h
  refine ⟨rfl, Nat.eq_of_testBit_eq fun i => ?_⟩
  rw [Shards.xorFirst, testBit_val_cons, Nat.testBit_xor, testBit_val_cons, msbyte, Nat.testBit_shiftLeft,
    BitVec.testBit_toNat]
  have hplace : 8 * (a :: sh).length - 8 = 8 * sh.length := by rw [List.length_cons]; omega
  rw [hplace]
  obtain hi | hi := Nat.lt_or_ge i (8 * sh.length)
  · simp [hi, Nat.not_le.2 hi]
  · simp [hi, Nat.not_lt.2 hi]

theorem Shards.xorLast_concat (b c : Byte) (sh : Shards) : Shards.xorLast b (sh ++ [c]) = sh ++ [c ^^^ b] := by
  simp [Shards.xorLast]

theorem Shards.Holds.xorLast (hS : 1 ≤ S) (h : Holds S sh v) (b : Byte) :
    Holds S (Shards.xorLast b sh) (v ^^^ lsbyte b) := by
  obtain ⟨sh, c, rfl⟩ := (List.eq_nil_or_concat' sh).resolve_left (h.ne_nil hS)
  obtain ⟨rfl, rfl⟩ := h
  rw [xorLast_concat]
  refine ⟨by simp, Nat.eq_of_testBit_eq fun i => ?_⟩
  rw [testBit_val_concat, Nat.testBit_xor, testBit_val_concat, lsbyte, BitVec.testBit_toNat]
  obtain hi | hi := Nat.lt_or_ge i 8
  · simp [hi]
  · simp [Nat.not_lt.2 hi, BitVec.getLsbD_of_ge b i hi]

/-! ## Rounds -/

theorem Shards.Holds.roundFwd (hp : Holds S poly p) (h : Holds S sh v) :
    Holds S (Shards.roundFwd poly sh) (Machine.roundFwd (8 * S) p v) := by
  have hshift : Holds S (Shards.shl1 sh) (Machine.shl1 (8 * S) v) := shl1_eq_shl sh ▸ h.shl (by decide)
  rw [Shards.roundFwd, Machine.roundFwd, topBit_eq, h.length_eq, h.val_eq]
  exact (hshift.xor hp).ite hshift

theorem Shards.Holds.roundRef (hp : Holds S poly p) (h : Holds S sh v) :
    Holds S (Shards.roundRef poly sh) (Machine.roundRef p v) := by
  have hshift : Holds S (Shards.shr1 sh) (Machine.shr1 v) := shr1_eq_shr sh ▸ h.shr (by decide)
  rw [Shards.roundRef, Machine.roundRef, botBit_eq, h.val_eq]
  exact (hshift.xor hp).ite hshift

theorem Shards.Holds.iterate {f : Shards → Shards} {g : Nat → Nat}
    (hfg : ∀ {sh v}, Holds S sh v → Holds S (f sh) (g v)) (k : Nat) (h : Holds S sh v) :
    Holds S (f^[k] sh) (g^[k] v) := by
  induction k with
  | zero => exact h
  | succ k ih =>
    rw [Function.iterate_succ_apply', Function.iterate_succ_apply']
    exact hfg ih

/-! ## The bit-by-bit update and the table entries -/

theorem Shards.Holds.bitwiseFwd (hS : 1 ≤ S) (h : Holds S sh v) (hp : Holds S poly p) (b : Byte) :
    Holds S (Shards.bitwiseFwd poly sh b) (Machine.bitwiseFwd (8 * S) p v b) :=
  iterate hp.roundFwd 8 (h.xorFirst hS b)

theorem Shards.Holds.bitwiseRef (hS : 1 ≤ S) (h : Holds S sh v) (hp : Holds S poly p) (b : Byte) :
    Holds S (Shards.bitwiseRef poly sh b) (Machine.bitwiseRef p v b) :=
  iterate hp.roundRef 8 (h.xorLast hS b)

theorem Shards.Holds.entry (hS : 1 ≤ S) (hp : Holds S poly p) (refin : Bool) (b : Byte) :
    Holds S (Shards.entry S poly refin b) (Machine.entry (8 * S) p refin b) := by
  cases refin with
  | false =>
    rw [entry_forward_eq_bitwiseFwd]
    exact (holds_replicate_zero S).bitwiseFwd hS hp b
  | true =>
    rw [entry_reflected_eq_bitwiseRef]
    exact (holds_replicate_zero S).bitwiseRef hS hp b

/-! ## The update by table -/

/-- Shard 0 is the index byte of a forward step (42 R93). -/
theorem Shards.Holds.headD_eq (h : Holds S sh v) : sh.headD 0 = hibyte (8 * S) v := by
  obtain ⟨rfl, rfl⟩ := h
  refine BitVec.eq_of_getLsbD_eq fun j hj => ?_
  rw [getLsbD_headD, hibyte, BitVec.getLsbD_ofNat, Nat.testBit_shiftRight]

/-- The last shard is the index byte of a reflected step (42 R94). -/
theorem Shards.Holds.getLastD_eq (h : Holds S sh v) : sh.getLastD 0 = lobyte v := by
  obtain ⟨rfl, rfl⟩ := h
  refine BitVec.eq_of_getLsbD_eq fun j hj => ?_
  rw [getLsbD_getLastD, lobyte, BitVec.getLsbD_ofNat]

theorem Shards.shrFrom_zero (above : Byte) (sh : Shards) : shrFrom 0 above sh = sh := by
  induction sh generalizing above with
  | nil => rfl
  | cons a sh ih => simp [shrFrom, ih]

theorem Shards.shrFrom_eight (above : Byte) (sh : Shards) : shrFrom 8 above sh = (above :: sh).dropLast := by
  induction sh generalizing above with
  | nil => rfl
  | cons a sh ih =>
    have hout : a >>> 8 = 0 := BitVec.ushiftRight_eq_zero (le_refl 8)
    simp [shrFrom, ih, hout]

/-- Every shard one place up is the left shift by 8 (44 R122, 90 C5). -/
theorem Shards.drop_one_concat_zero {sh : Shards} (h : sh ≠ []) : sh.drop 1 ++ [0] = shl 8 sh := by
  obtain ⟨a, sh, rfl⟩ := List.exists_cons_of_ne_nil h
  rw [shl_cons 8 (le_refl 8), shrFrom_zero]
  rfl

/-- Every shard one place down is the right shift by 8 (44 R122, 90 C5). -/
theorem Shards.zero_cons_dropLast {sh : Shards} (h : sh ≠ []) : 0 :: sh.dropLast = shr 8 sh := by
  rw [shr, shrFrom_eight, List.dropLast_cons_of_ne_nil h]

section Table

variable {t : ShardTable} {T : Table} (ht : ∀ b, Shards.Holds S (ShardTable.lookup t b) (T.lookup b))

include ht

theorem Shards.Holds.tableFwd (hS : 1 ≤ S) (h : Holds S sh v) (b : Byte) :
    Holds S (Shards.tableFwd t sh b) (Machine.tableFwd (8 * S) T v b) := by
  rw [Shards.tableFwd, drop_one_concat_zero (h.ne_nil hS), h.headD_eq]
  exact (h.shl (le_refl 8)).xor (ht _)

theorem Shards.Holds.tableRef (hS : 1 ≤ S) (h : Holds S sh v) (b : Byte) :
    Holds S (Shards.tableRef t sh b) (Machine.tableRef T v b) := by
  rw [Shards.tableRef, zero_cons_dropLast (h.ne_nil hS), h.getLastD_eq]
  exact (h.shr (le_refl 8)).xor (ht _)

end Table

end Holds

/-! ## Consuming bytes -/

@[simp] theorem ShardEngine.toEngine_table (e : ShardEngine) :
    e.toEngine.table = e.table.map fun t => t.map Shards.val := rfl

theorem ShardTable.lookup_map_val (t : ShardTable) (b : Byte) :
    Table.lookup (t.map Shards.val) b = Shards.val (t.lookup b) := by
  simp [Table.lookup, ShardTable.lookup, Vector.get_eq_getElem]

theorem one_le_shardCount {w : Nat} (h : 1 ≤ w) : 1 ≤ shardCount w := by
  rw [shardCount, Config.shardBits]
  omega

section Shaped

variable {e : ShardEngine} (h : e.Shaped)

include h

/-- 44 R121, R122, R125 in each of the four forms of the byte update. -/
theorem ShardEngine.Shaped.holds_updateByte (b : Byte) :
    Shards.Holds (shardCount e.width) (e.updateByte e.reg b) (e.toEngine.updateByte e.toEngine.reg b) := by
  have hS := one_le_shardCount h.width_pos
  have hpoly : Shards.Holds (shardCount e.width) e.poly e.toEngine.poly := ⟨h.poly_length, rfl⟩
  have hreg : Shards.Holds (shardCount e.width) e.reg e.toEngine.reg := ⟨h.reg_length, rfl⟩
  cases ht : e.table with
  | none =>
    have htable : e.toEngine.table = none := by simp [ht]
    cases hr : e.refin with
    | false =>
      rw [updateByte, ht, hr, e.toEngine.updateByte_bitwise_forward htable hr, toEngine_cbits, h.reg_length]
      exact hreg.bitwiseFwd hS hpoly b
    | true =>
      rw [updateByte, ht, hr, e.toEngine.updateByte_bitwise_reflected htable hr]
      exact hreg.bitwiseRef hS hpoly b
  | some t =>
    have htable : e.toEngine.table = some (t.map Shards.val) := by simp [ht]
    have hentry : ∀ b, Shards.Holds (shardCount e.width) (t.lookup b) (Table.lookup (t.map Shards.val) b) :=
      fun b => ⟨h.table_length t ht b, (t.lookup_map_val b).symm⟩
    cases hr : e.refin with
    | false =>
      rw [updateByte, ht, hr, e.toEngine.updateByte_table_forward htable hr, toEngine_cbits, h.reg_length]
      exact hreg.tableFwd hentry hS b
    | true =>
      rw [updateByte, ht, hr, e.toEngine.updateByte_table_reflected htable hr]
      exact hreg.tableRef hentry hS b

theorem ShardEngine.Shaped.consume (b : Byte) : (e.consume b).Shaped :=
  { h with reg_length := (h.holds_updateByte b).length_eq }

theorem ShardEngine.Shaped.toEngine_consume (b : Byte) : (e.consume b).toEngine = e.toEngine.consume b := by
  obtain ⟨hlen, hval⟩ := h.holds_updateByte b
  simp only [toEngine, ShardEngine.consume, Engine.consume, hlen, hval, h.reg_length]

end Shaped

/-- Settles O50: the arrays of a shaped engine hold the values of the engine it represents, so the form of the update
that the table and the orientation select holds the updated register. -/
theorem shardUpdateRepresentsTheUpdate : Obligations.ShardUpdateRepresentsTheUpdate :=
  fun _ b h => ⟨h.toEngine_consume b, h.consume b⟩

end Sys2Proof.Machine
end

section
/-! PROOFS. CONFIG on shards (44_multiword R120, R123, R125): the operands' bytes, cut or extended to the array, hold the
operand, so truncation and alignment on shards are those of 40_primitives R65. -/

namespace Sys2Proof.Machine

/-! ## The shard count -/

theorem cbitsOf_multi_eq_shardCount (w : Nat) : cbitsOf .multi w = 8 * shardCount w := rfl

theorem le_eight_mul_shardCount (w : Nat) : w ≤ 8 * shardCount w := by
  rw [shardCount, Config.shardBits]
  omega

theorem eight_mul_shardCount_sub_le {w : Nat} (h : 1 ≤ w) : 8 * shardCount w - w ≤ 7 := by
  rw [shardCount, Config.shardBits]
  omega

/-! ## The operands -/

theorem Shards.val_replicate_zero_append (n : Nat) (sh : Shards) : val (List.replicate n 0 ++ sh) = val sh := by
  rw [val_append, (holds_replicate_zero n).val_eq, Nat.mul_zero, Nat.zero_add]

/-- The last S bytes are the value modulo 2^(8 S), and zero shards in front of fewer bytes change nothing (44 R120). -/
theorem Shards.holds_fit (S : Nat) (x : List Byte) : Holds S (fit S x) (val x % 2 ^ (8 * S)) := by
  obtain hlt | hle := Nat.lt_or_ge S x.length
  · have hlen : (x.drop (x.length - S)).length = S := by
      rw [List.length_drop]
      omega
    have hlast := val_lt (x.drop (x.length - S))
    rw [hlen] at hlast
    refine ⟨by simp [fit, hlen, hlt.le], ?_⟩
    conv_rhs => rw [← List.take_append_drop (x.length - S) x]
    rw [fit, val_replicate_zero_append, val_append, hlen, Nat.mul_add_mod, Nat.mod_eq_of_lt hlast]
  · have hsmall : val x < 2 ^ (8 * S) := (val_lt x).trans_le (Nat.pow_le_pow_right (by decide) (by omega))
    refine ⟨by simp [fit, hle], ?_⟩
    rw [fit, Nat.sub_eq_zero_of_le hle, val_replicate_zero_append, List.drop_zero, Nat.mod_eq_of_lt hsmall]

section Operand

variable {w nb v : Nat} (hw : 1 ≤ w) (hv : v < 256 ^ nb)

include hw hv

theorem Shards.holds_trunc_fit :
    Holds (shardCount w) (Shards.trunc (8 * shardCount w - w) (fit (shardCount w) (beBytes nb v)))
      (Machine.trunc w v) := by
  have h := (holds_fit (shardCount w) (beBytes nb v)).trunc (one_le_shardCount hw) (eight_mul_shardCount_sub_le hw)
  have hval : val (beBytes nb v) = v := beNat_beBytes_of_lt hv
  rwa [hval, Nat.sub_sub_self (le_eight_mul_shardCount w), Machine.trunc,
    Nat.mod_mod_of_dvd v (Nat.pow_dvd_pow 2 (le_eight_mul_shardCount w))] at h

theorem Shards.holds_align (refl : Bool) :
    Holds (shardCount w) (Shards.align (shardCount w) (8 * shardCount w - w) refl (beBytes nb v))
      (Machine.align (8 * shardCount w) w refl v) := by
  have hle := le_eight_mul_shardCount w
  have hfits : Machine.align (8 * shardCount w) w false v < 2 ^ (8 * shardCount w) :=
    (placed_align hle false v).lt_two_pow hle
  have hforward : Holds (shardCount w)
      (Shards.align (shardCount w) (8 * shardCount w - w) false (beBytes nb v))
      (Machine.align (8 * shardCount w) w false v) :=
    Nat.mod_eq_of_lt hfits ▸ (holds_trunc_fit hw hv).shl (Nat.le_succ_of_le (eight_mul_shardCount_sub_le hw))
  cases refl with
  | false => exact hforward
  | true =>
    rw [align_reflected_eq_rev_forward hle]
    exact hforward.rev

end Operand

/-! ## The table -/

theorem ShardTable.lookup_generate (S : Nat) (poly : Shards) (refin : Bool) (b : Byte) :
    (generate S poly refin).lookup b = Shards.entry S poly refin b := by
  simp only [lookup, generate, Vector.get_ofFn]
  rw [BitVec.ofNat_toNat, BitVec.setWidth_eq]

theorem ShardTable.map_val_generate {S p : Nat} {poly : Shards} (hS : 1 ≤ S) (hp : Shards.Holds S poly p)
    (refin : Bool) : (generate S poly refin).map Shards.val = Table.generate (8 * S) p refin := by
  rw [generate, Vector.map_ofFn]
  exact congrArg Vector.ofFn (funext fun i => (Shards.Holds.entry hS hp refin _).val_eq)

/-! ## The engine CONFIG creates -/

section Create

variable {op : ConfigOperands} (hwf : op.wellFormed = true) (hw : 1 ≤ widthNat op)

include hwf hw

theorem ShardEngine.toEngine_create : (create op).toEngine = Engine.create .multi op := by
  obtain ⟨hpoly, hinit, hxorout⟩ := op.wellFormed_iff.1 hwf
  have hp := Shards.holds_align hw hpoly op.refin
  have hi := Shards.holds_align hw hinit op.refin
  have hx := Shards.holds_trunc_fit hw hxorout
  have ht := ShardTable.map_val_generate (one_le_shardCount hw) hp op.refin
  simp only [toEngine, create, Engine.create, hp.val_eq, hi.val_eq, hi.length_eq, hx.val_eq,
    cbitsOf_multi_eq_shardCount]
  cases op.withtable with
  | false => rfl
  | true => simp [ht]

theorem ShardEngine.shaped_create : (create op).Shaped := by
  obtain ⟨hpoly, hinit, hxorout⟩ := op.wellFormed_iff.1 hwf
  have hp := Shards.holds_align hw hpoly op.refin
  have hi := Shards.holds_align hw hinit op.refin
  exact
    { width_pos := hw
      reg_length := hi.length_eq
      poly_length := hp.length_eq
      init_length := hi.length_eq
      xorout_length := (Shards.holds_trunc_fit hw hxorout).length_eq
      moves_eq := rfl
      table_length := fun t ht b => by
        obtain ⟨-, hgen⟩ := Option.ite_none_right_eq_some.1 ht
        rw [← Option.some.inj hgen, ShardTable.lookup_generate]
        exact (hp.entry (one_le_shardCount hw) op.refin b).length_eq }

end Create

/-- Settles O49: a positive width is at least 1, and the operands of a well-formed CONFIG fit their bytes. -/
theorem shardConfigRepresentsTheEngine : Obligations.ShardConfigRepresentsTheEngine := fun op hwf hpos =>
  have hw : 1 ≤ widthNat op := Int.pos_iff_toNat_pos.1 hpos
  ⟨ShardEngine.toEngine_create hwf hw, ShardEngine.shaped_create hwf hw⟩

end Sys2Proof.Machine
end

section
/-! PROOFS. The commands of the multi-word core (44_multiword R124, R125): FIN and RST on shards, every command as
one simulation step, the FIN value of the other cores, and core C8 for the widths it holds. -/

namespace Sys2Proof.Machine

/-! ## FIN and RST -/

theorem ShardEngine.nbytes_toEngine (e : ShardEngine) : e.toEngine.nbytes = shardCount e.width := rfl

section Shaped

variable {e : ShardEngine} (h : e.Shaped)

include h

theorem ShardEngine.Shaped.moves_le_seven : e.moves ≤ 7 := h.moves_eq ▸ eight_mul_shardCount_sub_le h.width_pos

/-- The transform step by step on shards (44 R124). -/
theorem ShardEngine.Shaped.holds_finShards :
    Shards.Holds (shardCount e.width) e.finShards e.toEngine.finValue := by
  have hreg : Shards.Holds (shardCount e.width) e.reg e.toEngine.reg := ⟨h.reg_length, rfl⟩
  have hxorout : Shards.Holds (shardCount e.width) e.xorout e.toEngine.xorout := ⟨h.xorout_length, rfl⟩
  have hrev : Shards.Holds (shardCount e.width) (Shards.rev e.reg) (rev e.toEngine.cbits e.toEngine.reg) := by
    rw [toEngine_cbits, h.reg_length]
    exact hreg.rev
  have hreversed := hrev.ite (c := e.refin ≠ e.refout) hreg
  have hshifted := hreversed.shr (Nat.le_succ_of_le h.moves_le_seven)
  exact (hshifted.ite hreversed).xor hxorout

theorem ShardEngine.Shaped.rewind : e.rewind.Shaped := { h with reg_length := h.init_length }

theorem ShardEngine.Shaped.toEngine_rewind : e.rewind.toEngine = e.toEngine.rewind := by
  simp only [toEngine, ShardEngine.rewind, Engine.rewind, h.reg_length, h.init_length]

theorem ShardEngine.Shaped.beBytes_finValue : beBytes e.toEngine.nbytes e.toEngine.finValue = e.finShards := by
  obtain ⟨hlen, hval⟩ := h.holds_finShards
  rw [nbytes_toEngine, ← hlen, ← hval]
  exact beBytes_beNat e.finShards

end Shaped

/-- Settles O51: the FIN array holds the FIN value, and an array is the bytes of its value. -/
theorem shardFinRepresentsTheFin : Obligations.ShardFinRepresentsTheFin := fun e h =>
  ⟨h.holds_finShards.val_eq, h.holds_finShards.length_eq,
    congrArg (beBytes 2 e.toEngine.nbytes ++ ·) h.beBytes_finValue, h.toEngine_rewind, h.rewind⟩

/-! ## Feeding bytes -/

theorem ShardEngine.Shaped.feed {e : ShardEngine} (h : e.Shaped) (bs : List Byte) : (e.feed bs).Shaped := by
  induction bs generalizing e with
  | nil => exact h
  | cons b bs ih => exact ih (h.consume b)

theorem ShardEngine.Shaped.toEngine_feed {e : ShardEngine} (h : e.Shaped) (bs : List Byte) :
    (e.feed bs).toEngine = e.toEngine.feed bs := by
  induction bs generalizing e with
  | nil => rfl
  | cons b bs ih => rw [feed_cons, ih (h.consume b), h.toEngine_consume, Engine.feed_cons]

/-! ## Every command -/

/-- The outcome of a command in state `s` is what the result `r` on shards says (44 R125): its arrays represent the
engine left, and its response and its reads are the ones added. -/
def MultiResult.Matches (r : MultiResult) (s : State) (o : Host.Outcome State Fault Refusal) : Prop :=
  ∃ e, Represents r.engine e ∧
    o = .next { s with engine := e, responses := s.responses ++ [r.response], reads := s.reads ++ r.reads }

theorem multiRaise_matches {se : Option ShardEngine} {s : State} (h : Represents se s.engine) (err : CommandError) :
    (multiRaise err se).Matches s (raise err s) :=
  ⟨s.engine, h, by simp [multiRaise, raise_eq]⟩

theorem ShardEngine.Shaped.represents {x : ShardEngine} (h : x.Shaped) : Represents (some x) (some x.toEngine) :=
  ⟨rfl, fun _ hx => Option.some.inj hx ▸ h⟩

/-- A command that reads no memory and leaves an engine. -/
theorem answer_matches {x : ShardEngine} (h : x.Shaped) (r : Response) (s : State) :
    MultiResult.Matches ⟨some x, r, []⟩ s (answer r (s.setEngine x.toEngine)) :=
  ⟨some x.toEngine, h.represents, by simp [answer_eq, State.setEngine]⟩

theorem multiConfig_matches {op : ConfigOperands} {se : Option ShardEngine} {s : State} (h : Represents se s.engine)
    (hwf : op.wellFormed = true) (hmulti : Admissible op → configCore op = .multi) :
    (multiConfig op se).Matches s (execConfig op s) := by
  unfold multiConfig execConfig
  cases hc : configError op with
  | some err => exact multiRaise_matches h err
  | none =>
    have hadm := (configError_eq_none_iff op).1 hc
    have hw : 1 ≤ widthNat op := Int.pos_iff_toNat_pos.1 hadm.1
    dsimp only
    rw [hmulti hadm, ← ShardEngine.toEngine_create hwf hw]
    exact answer_matches (ShardEngine.shaped_create hwf hw) .ok s

/-- The NotConfigured check comes first on both sides (60 R135). -/
theorem multiWithEngine_matches {se : Option ShardEngine} {s : State} (h : Represents se s.engine)
    {k : ShardEngine → MultiResult} {k' : Engine → Host.Outcome State Fault Refusal}
    (hk : ∀ x : ShardEngine, x.Shaped → s.engine = some x.toEngine → (k x).Matches s (k' x.toEngine)) :
    (multiWithEngine se k).Matches s (withEngine s k') := by
  cases se with
  | none =>
    rw [withEngine_none s k' h.engine_eq]
    exact multiRaise_matches h .notConfigured
  | some x =>
    rw [withEngine_some s k' _ h.engine_eq]
    exact hk x (h.shaped x rfl) h.engine_eq

/-- Settles O53: CONFIG creates, and the other commands update or rewind, arrays that represent what `exec` leaves. -/
theorem multiwordCommandsComputeOnVal : Obligations.MultiwordCommandsComputeOnVal := by
  intro i s se h hwf hmulti
  cases i with
  | config op => exact multiConfig_matches h hwf (hmulti op rfl)
  | upd b =>
    refine multiWithEngine_matches h fun x hx _ => ?_
    rw [← hx.toEngine_consume]
    exact answer_matches (hx.consume b) .ok s
  | updbuf buf =>
    refine multiWithEngine_matches h fun x hx hs => ?_
    dsimp only [multiUpdbuf]
    cases bufferError buf with
    | some err => exact multiRaise_matches (hs ▸ hx.represents) err
    | none =>
      refine ⟨_, (hx.feed _).represents, ?_⟩
      rw [hx.toEngine_feed, answer_eq, consumeRange_eq]
  | fin =>
    refine multiWithEngine_matches h fun x hx _ => ?_
    rw [← hx.toEngine_rewind, ← hx.holds_finShards.val_eq, x.nbytes_toEngine, ← hx.holds_finShards.length_eq]
    exact answer_matches hx.rewind _ s
  | rst =>
    refine multiWithEngine_matches h fun x hx _ => ?_
    rw [← hx.toEngine_rewind]
    exact answer_matches hx.rewind .ok s

/-! ## The FIN value of the other cores -/

theorem capacity_le_wmax (c : Core) : capacity c ≤ Config.wmax := by
  have hwmax := Config.wmax_ge
  cases c with
  | c8 => exact (show 8 ≤ 82 by decide).trans hwmax
  | c16 => exact (show 16 ≤ 82 by decide).trans hwmax
  | c64 => exact (show 64 ≤ 82 by decide).trans hwmax
  | multi => exact le_refl _

/-- Settles O54: the arrays give the FIN value of core MULTI, which is that of the resolved core (42 R103). -/
theorem shardFinValueIsThatOfEveryCore : Obligations.ShardFinValueIsThatOfEveryCore := by
  intro op bs hwf hadm
  have hw : 1 ≤ widthNat op := Int.pos_iff_toNat_pos.1 hadm.1
  have hmulti : Admissible { op with core := .multi } := ⟨hadm.1, hadm.2.trans (capacity_le_wmax _)⟩
  have hshaped := ShardEngine.shaped_create hwf hw
  calc Shards.val ((ShardEngine.create op).feed bs).finShards
    _ = ((ShardEngine.create op).feed bs).toEngine.finValue := (hshaped.feed bs).holds_finShards.val_eq
    _ = ((Engine.create .multi op).feed bs).finValue := by
      rw [hshaped.toEngine_feed, ShardEngine.toEngine_create hwf hw]
    _ = crcValue op bs := crcValueIsIndependentOfTheCore op .multi op.withtable bs hadm hmulti

/-! ## One shard -/

/-- The same engine under the name of another core (10 R12). -/
def Engine.withCore (e : Engine) (c : Core) : Engine := { e with core := c }

/-- No rule of the byte update reads `CORE`. -/
theorem Engine.feed_withCore (e : Engine) (c : Core) (bs : List Byte) :
    (e.withCore c).feed bs = (e.feed bs).withCore c := by
  induction bs generalizing e with
  | nil => rfl
  | cons b bs ih => exact ih (e.consume b)

theorem Engine.create_withCore {c c' : Core} {op : ConfigOperands}
    (h : cbitsOf c' (widthNat op) = cbitsOf c (widthNat op)) :
    Engine.create c' op = (Engine.create c op).withCore c' := by
  simp only [Engine.create, Engine.withCore, h]

theorem shardCount_eq_one {w : Nat} (hpos : 1 ≤ w) (h : w ≤ 8) : shardCount w = 1 := by
  rw [shardCount, Config.shardBits]
  omega

/-- Settles O52: one shard makes the container of core C8, and no rule of the update reads the name of the core. -/
theorem narrowMultiIsStateForStateC8 : Obligations.NarrowMultiIsStateForStateC8 := by
  intro op bs hpos h8
  have hS : shardCount (widthNat op) = 1 := shardCount_eq_one (Int.pos_iff_toNat_pos.1 hpos) (Int.toNat_le.2 h8)
  have hcbits : cbitsOf .multi (widthNat op) = cbitsOf .c8 (widthNat op) := congrArg (8 * ·) hS
  rw [Engine.create_withCore hcbits, Engine.feed_withCore]
  rfl

end Sys2Proof.Machine
end

section
/-! PROOFS. The error responses (60_exceptions R130, R131, R135 to R138, R144): which frames are illegal (30_encoding
R49), what each command may answer, that an error changes nothing, and the order of the errors. -/

namespace Sys2Proof.Machine

/-! ## Illegal frames, format by format (30 R49) -/

/-- The reserved bits 1:0 of a CONFIG frame's byte 1 (30 R43). -/
theorem byteBit_one_or_zero_iff (b : Byte) : byteBit b 1 = true ∨ byteBit b 0 = true ↔ b.toNat % 4 ≠ 0 := by
  simp only [byteBit, BitVec.getLsbD, Nat.testBit_eq_decide_div_mod_eq, decide_eq_true_eq]
  omega

/-- The reserved values of a CONFIG frame's `core` field, bits 7:5 of byte 1 (30 R43). -/
theorem ofCode_extractLsb'_eq_none_iff (b : Byte) :
    CoreSel.ofCode (b.extractLsb' 5 3) = none ↔ 5 ≤ b.toNat / 32 := by
  have hcode : (b.extractLsb' 5 3).toNat = b.toNat / 32 := by
    rw [BitVec.extractLsb'_toNat, Nat.shiftRight_eq_div_pow]
    omega
  rw [← hcode]
  generalize b.extractLsb' 5 3 = c
  revert c
  decide

/-- The reserved bits 7:1 of a UPDBUF frame's byte 1 (30 R45). -/
theorem extractLsb'_one_seven_ne_zero_iff (b : Byte) : b.extractLsb' 1 7 ≠ 0 ↔ 2 ≤ b.toNat := by
  rw [Ne, ← BitVec.toNat_inj, BitVec.extractLsb'_toNat, Nat.shiftRight_eq_div_pow]
  simp only [BitVec.ofNat_eq_ofNat, BitVec.toNat_ofNat]
  omega

/-- The `nb` field of a CONFIG frame long enough to hold it (30 R43, R48). -/
theorem beNat_field_nb {f : List Byte} (h : 8 ≤ f.length) :
    beNat (field 6 2 f) = 256 * frameByte f 6 + frameByte f 7 := by
  have hfield : field 6 2 f = [f.getD 6 0, f.getD 7 0] := by
    rw [field, List.drop_eq_getElem_cons (by omega), List.drop_eq_getElem_cons (by omega),
      List.getD_eq_getElem _ _ (by omega), List.getD_eq_getElem _ _ (by omega)]
    rfl
  rw [hfield]
  simp [beNat, frameByte, Nat.mul_comm]

/-- The two length checks of a CONFIG frame; the second reads `nb` and counts only for a frame that holds it. -/
theorem configLength_wrong_iff (f : List Byte) :
    (f.length < 8 ∨ f.length ≠ 8 + 3 * beNat (field 6 2 f)) ↔
      (f.length < 8 ∨ f.length ≠ 8 + 3 * (256 * frameByte f 6 + frameByte f 7)) :=
  or_congr_right' fun hmin => by rw [beNat_field_nb (not_lt.1 hmin)]

theorem decodeConfig_error_iff (f : List Byte) :
    (∃ err, decodeConfig f = .error err) ↔
      f.length < 8 ∨ f.length ≠ 8 + 3 * (256 * frameByte f 6 + frameByte f 7) ∨
        5 ≤ frameByte f 1 / 32 ∨ frameByte f 1 % 4 ≠ 0 := by
  have hbits_iff := byteBit_one_or_zero_iff (f.getD 1 0)
  have hcore_iff := ofCode_extractLsb'_eq_none_iff (f.getD 1 0)
  rw [← or_assoc, ← configLength_wrong_iff]
  unfold decodeConfig
  dsimp only
  split_ifs with hlen hbits
  · exact iff_of_true ⟨_, rfl⟩ (.inl hlen)
  · exact iff_of_true ⟨_, rfl⟩ (.inr (.inr (hbits_iff.1 hbits)))
  · split
    next hcore => exact iff_of_true ⟨_, rfl⟩ (.inr (.inl (hcore_iff.1 hcore)))
    next core hcore =>
      have hlegal := Option.ne_none_iff_exists'.2 ⟨core, hcore⟩
      exact iff_of_false (by simp) (not_or.2 ⟨hlen, not_or.2 ⟨mt hcore_iff.2 hlegal, mt hbits_iff.2 hbits⟩⟩)

theorem decodeUpd_error_iff (f : List Byte) : (∃ err, decodeUpd f = .error err) ↔ f.length ≠ 2 := by
  unfold decodeUpd
  split_ifs with hlen <;> simp [hlen]

theorem decodeUpdbuf_error_iff (f : List Byte) :
    (∃ err, decodeUpdbuf f = .error err) ↔ f.length ≠ 22 ∨ 2 ≤ frameByte f 1 := by
  rw [frameByte, ← extractLsb'_one_seven_ne_zero_iff]
  unfold decodeUpdbuf
  dsimp only
  split_ifs with hlen hbits
  · exact iff_of_true ⟨_, rfl⟩ (.inl hlen)
  · exact iff_of_true ⟨_, rfl⟩ (.inr hbits)
  · exact iff_of_false (by simp) (not_or.2 ⟨hlen, hbits⟩)

theorem decodeBare_error_iff (i : Instr) (f : List Byte) : (∃ err, decodeBare i f = .error err) ↔ f.length ≠ 1 := by
  unfold decodeBare
  split_ifs with hlen <;> simp [hlen]

/-- The decoder refuses exactly the frames of 30 R49: the opcode selects the format whose conditions apply. -/
theorem illegalFrame_iff_decode_error (f : List Byte) : IllegalFrame f ↔ ∃ err, decode f = .error err := by
  cases f with
  | nil => exact iff_of_true (.inl rfl) ⟨_, rfl⟩
  | cons opcode fs =>
    have hop : frameByte (opcode :: fs) 0 = opcode.toNat := rfl
    simp only [decode, IllegalFrame, hop]
    split_ifs with h1 h2 h3 h4 h5
    · simp [h1, decodeConfig_error_iff]
    · simp [h2, decodeUpd_error_iff]
    · simp [h3, decodeUpdbuf_error_iff]
    · simp [h4, decodeBare_error_iff]
    · simp [h5, decodeBare_error_iff]
    · have hunknown : opcode.toNat = 0 ∨ 6 ≤ opcode.toNat := by bv_omega
      exact iff_of_true (.inr (hunknown.imp_right .inl)) ⟨_, rfl⟩

theorem not_illegalFrame_iff_decode_ok (f : List Byte) : ¬ IllegalFrame f ↔ ∃ i, decode f = .ok i := by
  rw [illegalFrame_iff_decode_error]
  cases decode f with
  | ok i => simp
  | error err => simp

/-! ## What a command answers -/

theorem canAnswer_ok_of_consumes {i : Instr} (h : Consumes i) : CanAnswer i .ok := by
  cases i with
  | upd b => trivial
  | updbuf buf => trivial
  | _ => exact h.elim

/-- Settles O39: a refusal is one of the command's errors, a success has the command's own OK. -/
theorem commandsGiveOnlyTheirResponses : Obligations.CommandsGiveOnlyTheirResponses := by
  intro i s
  obtain ⟨err, herr, hx⟩ | ⟨op, rfl, -, hx⟩ | ⟨e, -, hcons, hx⟩ | ⟨e, -, rfl, hx⟩ | ⟨e, -, rfl, hx⟩ :=
    exec_inversion i s
  · exact ⟨_, _, hx, rfl, herr⟩
  · exact ⟨_, _, hx, rfl, trivial⟩
  · exact ⟨_, _, hx, rfl, canAnswer_ok_of_consumes hcons⟩
  · exact ⟨_, _, hx, rfl, trivial⟩
  · exact ⟨_, _, hx, rfl, trivial⟩

/-- IllegalCommand is the decoder's response, no command's (60 R136). -/
theorem not_canAnswer_illegalCommand (i : Instr) : ¬ CanAnswer i (.error .illegalCommand) := by
  cases i <;> exact id

/-! ## The response to an illegal frame -/

theorem step_illegalFrame {s : State} {f : List Byte} {rest : List HostEvent} (hp : s.pending = .frame f :: rest)
    (hf : IllegalFrame f) :
    step s = .next { s with pending := rest, responses := s.responses ++ [.error .illegalCommand] } := by
  obtain ⟨err, hd⟩ := (illegalFrame_iff_decode_error f).1 hf
  exact step_illegal s f rest err hp hd

/-- Settles O8: the decoder refuses the frames of R49 and no others; every frame it accepts carries a command, which
gives a response of its own. -/
theorem illegalFramesAreAnsweredIllegalCommand : Obligations.IllegalFramesAreAnsweredIllegalCommand := by
  refine ⟨illegalFrame_iff_decode_error, not_illegalFrame_iff_decode_ok, fun s f rest => step_illegalFrame,
    fun s f rest hp hf => ?_⟩
  obtain ⟨i, hd⟩ := (not_illegalFrame_iff_decode_ok f).1 hf
  obtain ⟨t, r, hx, hr, hcan⟩ := commandsGiveOnlyTheirResponses i { s with pending := rest }
  refine ⟨t, r, (step_decoded s f rest i hp hd).trans hx, hr, ?_⟩
  rintro rfl
  exact not_canAnswer_illegalCommand i hcan

/-! ## Phase Unconfigured -/

theorem exec_of_engine_eq_none {i : Instr} {s : State} (he : s.engine = none) (hi : ∀ op, i ≠ .config op) :
    exec i s = raise .notConfigured s := by
  cases i with
  | config op => exact absurd rfl (hi op)
  | upd b => exact withEngine_none s _ he
  | updbuf buf => exact withEngine_none s _ he
  | fin => exact withEngine_none s _ he
  | rst => exact withEngine_none s _ he

/-- No command takes the engine away. -/
theorem exec_keeps_engine {i : Instr} {s t : State} (h : exec i s = .next t) (he : s.engine ≠ none) :
    t.engine ≠ none := by
  obtain ⟨err, -, hx⟩ | ⟨op, -, -, hx⟩ | ⟨e, -, -, hx⟩ | ⟨e, -, -, hx⟩ | ⟨e, -, -, hx⟩ :=
    exec_inversion i s <;> cases hx.symm.trans h
  · exact he
  all_goals exact Option.some_ne_none _

/-- Settles O37: the NotConfigured check comes first; of the steps only hardware reset removes the engine. -/
theorem onlyHardwareResetUnconfigures : Obligations.OnlyHardwareResetUnconfigures := by
  refine ⟨fun s i => exec_of_engine_eq_none, fun s t hs h ht => ?_⟩
  rw [State.phase_eq_unconfigured_iff] at ht
  have he : s.engine ≠ none := mt State.phase_eq_unconfigured_iff.2 hs
  obtain ⟨-, hx⟩ | ⟨f, rest, i, -, -, hx⟩ | ⟨f, rest, err, -, -, hx⟩ | ⟨a, v, rest, -, hx⟩ | ⟨rest, hp, -⟩ :=
    step_cases s
  · cases hx.symm.trans h
    exact absurd ht he
  · exact absurd ht (exec_keeps_engine (hx.symm.trans h) he)
  · cases hx.symm.trans h
    exact absurd ht he
  · cases hx.symm.trans h
    exact absurd ht he
  · exact ⟨rest, hp⟩

/-! ## An error changes nothing -/

/-- A command that answers an error was refused: the response is all it adds (60 R138). -/
theorem exec_of_error_response {i : Instr} {s t : State} {err : CommandError} (h : exec i s = .next t)
    (hr : t.responses = s.responses ++ [.error err]) :
    t = { s with responses := s.responses ++ [.error err] } := by
  obtain ⟨err, -, hx⟩ | ⟨op, -, -, hx⟩ | ⟨e, -, -, hx⟩ | ⟨e, -, -, hx⟩ | ⟨e, -, -, hx⟩ :=
    exec_inversion i s <;> cases hx.symm.trans h <;> cases List.append_cancel_left hr
  rfl

/-- Settles O38: the response tells a refused command from the others; an illegal frame runs no command. -/
theorem errorResponsesChangeNothing : Obligations.ErrorResponsesChangeNothing := by
  refine ⟨fun s t i err => exec_of_error_response, fun s t f rest err hp h hr => ?_⟩
  cases hd : decode f with
  | ok i => exact exec_of_error_response ((step_decoded s f rest i hp hd).symm.trans h) hr
  | error derr =>
    cases (step_illegal s f rest derr hp hd).symm.trans h
    cases List.append_cancel_left hr
    rfl

/-! ## The first applicable error -/

/-- Settles O40: the decoder's check comes before every command's, and each command's checks come in the rule's
order. -/
theorem theFirstApplicableErrorIsAnswered : Obligations.TheFirstApplicableErrorIsAnswered := by
  intro s f rest hp answers
  have hstep : ∀ {i}, decode f = .ok i → step s = exec i { s with pending := rest } := step_decoded s f rest _ hp
  refine ⟨step_illegalFrame hp, fun i hd hi he => ?_, fun op hd hwidth => ?_, fun op hd _ hcap => ?_,
    fun e buf hd he habsent => ?_, fun e buf hd he hpresent htop => ?_,
    fun e buf hd he hpresent hspace hrange => ?_⟩
  · exact (hstep hd).trans (exec_of_engine_eq_none he hi)
  · exact (hstep hd).trans (exec_config_of_not_admissible _ fun hadm => hwidth.not_gt hadm.1)
  · exact (hstep hd).trans (exec_config_of_not_admissible _ fun hadm => hcap.not_ge hadm.2)
  · exact (hstep hd).trans (execUpdbuf_refused buf _ he (bufferError_of_absent habsent))
  · exact (hstep hd).trans (execUpdbuf_refused buf _ he (bufferError_of_past_top hpresent htop))
  · exact (hstep hd).trans (execUpdbuf_refused buf _ he (bufferError_of_out_of_range hpresent hspace hrange))

/-! ## Idling -/

/-- Settles O10: with no event to take the step keeps the state. -/
theorem idleBlockKeepsAllState : Obligations.IdleBlockKeepsAllState := step_idle

end Sys2Proof.Machine
end

section
/-! PROOFS. Reset and the host's events (70_reset_and_hazards R150, R151, R160): hardware reset takes the engine and
nothing else, the host's write changes one byte, and reset meets the invariant. -/

namespace Sys2Proof.Machine

/-! ## The host's write (70 R160) -/

theorem Memory.read_write_same {m : Memory} (h : m.wf = true) (a : Nat) (v : Byte) : (m.write a v).read a = v :=
  (Memory.read_write m 0 a a v h).trans (if_pos rfl)

theorem Memory.read_write_of_ne {m : Memory} (h : m.wf = true) {a x : Nat} (v : Byte) (hx : x ≠ a) :
    (m.write a v).read x = m.read x :=
  (Memory.read_write m 0 a x v h).trans (if_neg hx)

/-- Settles O12: the step is the host's write, whose memory reads back the value at its address alone. -/
theorem hostWriteChangesOneByte : Obligations.HostWriteChangesOneByte := by
  intro s a v rest hwf hp
  refine ⟨_, step_hostWrite s a v rest hp, ?_, ?_, fun x hx => ?_, rfl, rfl, rfl, rfl⟩
  · exact Memory.wf_write s.mem a v hwf
  · exact Memory.read_write_same hwf a.toNat v
  · exact Memory.read_write_of_ne hwf v hx

/-! ## Hardware reset (70 R150, R151) -/

theorem step_hardwareReset (s : State) (rest : List HostEvent) (h : s.pending = .hardwareReset :: rest) :
    step s = .next ({ s with pending := rest } : State).hardwareReset := by
  simp [step, State.takeEvent, h]

/-- Settles O11: both in the state after power-on and after the reset of a running block the engine is absent, which
is phase Unconfigured. -/
theorem hardwareResetLeavesUnconfigured : Obligations.HardwareResetLeavesUnconfigured := by
  refine ⟨⟨State.phase_eq_unconfigured_iff.2 State.reset_engine, State.reset_engine⟩, fun s rest hp => ?_⟩
  refine ⟨_, step_hardwareReset s rest hp, ?_, State.hardwareReset_engine _, rfl, rfl, rfl, rfl⟩
  exact State.phase_eq_unconfigured_iff.2 (State.hardwareReset_engine _)

theorem State.inv_of_engine_eq_none {s : State} (hm : s.mem.wf = true) (he : s.engine = none) : s.Inv where
  mem_wf := hm
  engine_good e hs := by
    rw [he] at hs
    contradiction

/-- Settles O46: at reset memory lists nothing and there is no engine to be good. -/
theorem resetMeetsTheInvariant : Obligations.ResetMeetsTheInvariant :=
  State.inv_of_engine_eq_none State.reset_mem_wf State.reset_engine

end Sys2Proof.Machine
end
